-- ==== Sys2Proof/Config.lean ====
section
/-! DEFINITION. The implementation parameters of R5 that are numbers. The remaining parameter, `EXT`, is an argument of
`stepExt` (Machine/Extension.lean). -/

namespace Sys2Proof

/-- The parameters R5 marks OPEN. A statement about every state is a statement about every value of them. -/
structure Config where
  /-- `CODE_LEN`, length in bytes of `CodeRegion`. -/
  codeLen : Nat
  /-- `DATA_LEN`, length in bytes of `DataRegion`. -/
  dataLen : Nat
  /-- `PCW`, width in bits of `PC`. -/
  pcw : Nat
  /-- `AW`, width in bits of a memory offset on the address path. -/
  aw : Nat
  deriving DecidableEq, Repr

/-- `TOTAL = CODE_LEN + DATA_LEN` (R5, R51). -/
def Config.total (c : Config) : Nat := c.codeLen + c.dataLen

/-- The ranges R5 gives the parameters. -/
abbrev Config.wf (c : Config) : Prop :=
  1 ≤ c.codeLen ∧ c.codeLen ≤ 2 ^ c.pcw ∧ c.total ≤ 2 ^ c.aw

end Sys2Proof
end

