-- ==== Sys2Proof/Word.lean ====
section
/-! DEFINITION. The byte of wasmulator CORE and the two width changes of the spec's notation. -/

namespace Sys2Proof

/-- A byte, the smallest addressable unit and the width of `A`, `B` and `F` (R5: `XLEN` = `FLEN` = 8). -/
abbrev Byte := BitVec 8

/-- `zext_N(v)` of R7. -/
abbrev zext {m : Nat} (n : Nat) (v : BitVec m) : BitVec n := v.setWidth n

/-- `sext_N(v)` of R7. -/
abbrev sext {m : Nat} (n : Nat) (v : BitVec m) : BitVec n := v.signExtend n

end Sys2Proof
end

