-- ==== Sys2Proof/Machine/State.lean ====
section
/-! DEFINITION. The state of wasmulator CORE (10_state.md) as plain data, the reasons an operation can stop, and the
state after reset. -/

namespace Sys2Proof.Machine

open Sys2Proof

/-- The execution state `ES` (R27). -/
inductive ExecState where
  | uninitialized
  | ready
  | running
  | halted
  | faulted
  deriving DecidableEq, Repr

/-- The faults a step can raise and `CAUSE` can hold (R28, R170). -/
inductive FaultKind where
  | illegalInstruction
  | outOfBoundsAccess
  deriving DecidableEq, Repr

/-- The 8-bit registers `A`, `B`, `F` (R21, R22, R31), the copies an instruction computes on (R8, R150). -/
structure Regs where
  a : Byte
  b : Byte
  f : Byte
  deriving DecidableEq, Repr

/-- The memory image: the listed bytes, addresses strictly rising, none equal to what an unlisted address reads as. -/
abbrev Memory := List Host.Cell

/-- The state (R20), and the parameters the machine was built with, which no operation changes (log 2). -/
structure State where
  /-- `A`, `B`, `F`. -/
  regs : Regs
  /-- `PC`, a natural number (R7, R24). -/
  pc : Nat
  /-- `ES`. -/
  es : ExecState
  /-- `CAUSE`; `none` is the spec's own `None` (R28). -/
  cause : Option FaultKind
  /-- `MEM`. -/
  mem : Memory
  /-- The parameters of R5; the model's own field. -/
  cfg : Config
  deriving DecidableEq, Repr

/-- Stops at construction. No step, instruction or interface operation answers one: the spec's own faults are states
(R175), which the model enters as next states (log 6). -/
inductive Fault where
  /-- Raised by `construct` for parameters outside the ranges of R5. Safe: no state is built. -/
  | invalidParameters
  /-- Raised by `construct` for an image whose length is not `TOTAL` (R6, U8). Safe: no state is built. -/
  | imageLengthMismatch
  deriving DecidableEq, Repr

/-- Situations the model gives no meaning. -/
inductive Refusal where
  /-- An instruction without a meaning; raised by no arm of `exec`. Safe. -/
  | notModelled (mnemonic : String)
  /-- Raised by the interface's memory read and write at an offset outside the image (R71, U18). Safe. -/
  | hostAccessOutOfBounds
  deriving DecidableEq, Repr

/-- The sizes of the machine that `State.reset` describes (DESIGN CHOICE, log 3). -/
def resetConfig : Config := { codeLen := 256, dataLen := 256, pcw := 8, aw := 9 }

/-- The machine right after the architectural reset: construction, then `init` (R33, R201; log 1). -/
def State.reset : State :=
  { regs := { a := 0, b := 0, f := 0 }, pc := 0, es := .ready, cause := none, mem := [], cfg := resetConfig }

end Sys2Proof.Machine
end

