-- ==== Sys2Proof/Machine/Flags.lean ====
section
/-! DEFINITION. The flags register `F` (R31), the one flag computation of the spec (R130), and the rule that an entry
writes the bits of `F` it states and no others (R150, R157). -/

namespace Sys2Proof.Machine

open Sys2Proof

/-- `C`, bit 0 of `F` (R31). -/
def carryFlag (f : Byte) : Bool := f.getLsbD 0

/-- The reserved bits `F[7:1]` (R31). -/
def reservedFlags (f : Byte) : BitVec 7 := f.extractLsb' 1 7

/-- The 9-bit sum `zext_9(a) + zext_9(b)` (R130). -/
def sum9 (a b : Byte) : BitVec 9 := zext 9 a + zext 9 b

/-- The flags of an addition, `zext_8(s[8])`: the carry in bit 0 (R130). -/
def flagsOfSum (s : BitVec 9) : Byte := zext 8 (s.extractLsb' 8 1)

/-- The one bit of `F` a baseline instruction writes: `C` (R31, D4). -/
def carryMask : Byte := 0x01

/-- `F` with the bits of `mask` taken from `new` and the others kept from `old`. -/
def mergeFlags (mask old new : Byte) : Byte := (old &&& ~~~mask) ||| (new &&& mask)

/-- The registers an entry hands on, with no bit of `F` changed but those of its mask (R150). -/
def limitRegs (mask : Byte) (old new : Regs) : Regs := { new with f := mergeFlags mask old.f new.f }

end Sys2Proof.Machine
end

