-- ==== Sys2Proof/Machine/Ops.lean ====
section
/-! DEFINITION. The named operations over memory and registers: bytes of the image, the access primitives and their
bounds check (20_memory.md), raising a fault and the return from one (60_exceptions.md), and the contract of a table
entry with its commit (40_step_cycle.md, 43_operation_classes.md). -/

namespace Sys2Proof.Machine

open Sys2Proof

/-! ### Bytes of the image -/

/-- What an unlisted byte of the image reads as (DESIGN CHOICE, log 4). -/
def unlistedByte : Byte := 0x00

/-- `MEM[a]` (R8). -/
def Memory.readByte : Memory → Nat → Byte
  | [], _ => unlistedByte
  | (x, b) :: m, a => if x = a then b else Memory.readByte m a

/-- A cell put before the listed ones, unless it holds what an unlisted byte reads as. -/
def Memory.listCell (a : Nat) (b : Byte) (m : Memory) : Memory :=
  if b = unlistedByte then m else (a, b) :: m

/-- `MEM[a] <- b`, keeping the canonical form. -/
def Memory.writeByte : Memory → Nat → Byte → Memory
  | [], a, b => Memory.listCell a b []
  | (x, c) :: m, a, b =>
    if a < x then Memory.listCell a b ((x, c) :: m)
    else if a = x then Memory.listCell a b m
    else (x, c) :: Memory.writeByte m a b

/-- The addresses rise from `low` on, and no cell holds what an unlisted byte reads as. -/
def Memory.wfFrom : Nat → Memory → Bool
  | _, [] => true
  | low, (x, b) :: m => decide (low ≤ x) && b != unlistedByte && Memory.wfFrom (x + 1) m

/-- The canonical form. -/
def Memory.wf (m : Memory) : Bool := Memory.wfFrom 0 m

/-- Every listed address lies below `total` (R34). -/
def Memory.fits (total : Nat) (m : Memory) : Bool := m.all fun c => decide (c.1 < total)

/-- `n` bytes from `a` up. -/
def Memory.loadBytes (m : Memory) (a : Nat) : Nat → List Byte
  | 0 => []
  | n + 1 => m.readByte a :: Memory.loadBytes m (a + 1) n

/-- Stores a list of bytes from `a` up. -/
def Memory.storeBytes (m : Memory) (a : Nat) : List Byte → Memory
  | [] => m
  | b :: bs => Memory.storeBytes (m.writeByte a b) (a + 1) bs

/-! ### Byte order -/

/-- The number a list of bytes stands for, least significant byte first (R57). -/
def leValue : List Byte → Nat
  | [] => 0
  | b :: bs => b.toNat + 256 * leValue bs

/-- The low `n` bytes of `v`, least significant byte first (R54, R57). -/
def leBytes : Nat → Nat → List Byte
  | 0, _ => []
  | n + 1, v => BitVec.ofNat 8 v :: leBytes n (v / 256)

/-! ### The access primitives -/

/-- The bounds check, on exact integers: no clamp, no wrap, a negative address is outside (R55). -/
def inBounds (c : Config) (addr : Int) (n : Nat) : Bool :=
  decide (0 ≤ addr) && decide (addr + n ≤ c.total)

/-- `MemRead(addr, n)`: the bytes in ascending address order (R53). -/
def memRead (c : Config) (m : Memory) (addr : Int) (n : Nat) : Except FaultKind (List Byte) :=
  if inBounds c addr n then .ok (m.loadBytes addr.toNat n) else .error .outOfBoundsAccess

/-- `MemRead(addr, n)` as a number (R53, R57). -/
def memReadValue (c : Config) (m : Memory) (addr : Int) (n : Nat) : Except FaultKind Nat :=
  match memRead c m addr n with
  | .ok bs => .ok (leValue bs)
  | .error e => .error e

/-- `MemWrite(addr, n, v)` (R54): all or nothing (R56), against `TOTAL` only (R62). -/
def memWrite (c : Config) (m : Memory) (addr : Int) (n v : Nat) : Except FaultKind Memory :=
  if inBounds c addr n then .ok (m.storeBytes addr.toNat (leBytes n v)) else .error .outOfBoundsAccess

/-- `FetchByte(addr)`: the instruction-side read, limited to `CodeRegion` (R61). -/
def fetchByte (c : Config) (m : Memory) (addr : Nat) : Except FaultKind Byte :=
  if addr < c.codeLen then .ok (m.readByte addr) else .error .outOfBoundsAccess

/-! ### Faults -/

/-- Fault entry: `ES <- Faulted`, `CAUSE <- X`, nothing else (R175). -/
def raise (x : FaultKind) (s : State) : State := { s with es := .faulted, cause := some x }

/-- `init()`, the architectural reset and the only return from a fault (R102, R178). -/
def init (s : State) : State :=
  { s with regs := { a := 0, b := 0, f := 0 }, pc := 0, cause := none, es := .ready }

/-- `Ready` or `Running`: the states in which `step` runs the cycle (R103, R115). -/
def State.runnable (s : State) : Bool :=
  match s.es with
  | .ready => true
  | .running => true
  | .uninitialized => false
  | .halted => false
  | .faulted => false

/-! ### The contract of a table entry -/

/-- A transition of a table entry after its inputs are known (R150): it reaches memory by `load` and `store` alone, in
the order it makes its accesses (R154, R174), and ends in `Next`, `Halt` or `raise OutOfBoundsAccess`. -/
inductive Transition where
  /-- `Next(x', MEM', pc')`. -/
  | next (x : Regs) (pc : Int)
  /-- `Halt(x', MEM', pc')`. -/
  | halt (x : Regs) (pc : Nat)
  /-- `MemRead(addr, n)`, and what is done with the bytes. -/
  | load (addr : Int) (n : Nat) (k : List Byte → Transition)
  /-- `MemWrite(addr, n, v)`, and what is done after it. -/
  | store (addr : Int) (n v : Nat) (k : Transition)
  /-- `raise OutOfBoundsAccess` by the entry itself. -/
  | outOfBounds

/-- An entry of the decode table (R90, R150): operand width, the bits of `F` it states that it writes (R157), and the
transition function over the registers, the address of the opcode byte and the operand bytes. -/
structure Entry where
  width : Nat
  /-- Bit `i` is set when the entry writes bit `i` of `F`. -/
  flags : Byte
  exec : Regs → Nat → List Byte → Transition

/-- What execute hands to the commit (R106, step 4). -/
inductive Result where
  | next (x : Regs) (m : Memory) (pc : Int)
  | halt (x : Regs) (m : Memory) (pc : Nat)
  | outOfBounds
  deriving DecidableEq, Repr

/-- Runs a transition on copies: reads see `start`, the memory as the step found it; writes go to `staged` (R65). -/
def Transition.result (c : Config) (start : Memory) : Memory → Transition → Result
  | staged, .next x pc => .next x staged pc
  | staged, .halt x pc => .halt x staged pc
  | staged, .load addr n k =>
    match memRead c start addr n with
    | .ok bs => Transition.result c start staged (k bs)
    | .error _ => .outOfBounds
  | staged, .store addr n v k =>
    match memWrite c staged addr n v with
    | .ok staged' => Transition.result c start staged' k
    | .error _ => .outOfBounds
  | _, .outOfBounds => .outOfBounds

/-- A result with its registers limited to the flag bits of `mask` (R150). An entry that computes no other change of `F`
hands on its own registers (log 22). -/
def Result.limitFlags (mask : Byte) (old : Regs) : Result → Result
  | .next x m pc => .next (limitRegs mask old x) m pc
  | .halt x m pc => .halt (limitRegs mask old x) m pc
  | .outOfBounds => .outOfBounds

/-- A next `PC` with which a step may stay in `Running` (R112). -/
def inCode (c : Config) (pc : Int) : Bool := decide (0 ≤ pc) && decide (pc < c.codeLen)

/-- Step 5 of the cycle: the range check of the next `PC`, then all effects together or none (R106, R112, R113). -/
def commit (r : Result) (s : State) : State :=
  match r with
  | .next x m pc =>
    if inCode s.cfg pc then { s with regs := x, mem := m, pc := pc.toNat, es := .running }
    else raise .outOfBoundsAccess s
  | .halt x m pc => { s with regs := x, mem := m, pc := pc, es := .halted }
  | .outOfBounds => raise .outOfBoundsAccess s

/-- Steps 4 and 5 of the cycle for one entry and its operand bytes (R110 to R113). -/
def runEntry (e : Entry) (operands : List Byte) (s : State) : State :=
  commit (Result.limitFlags e.flags s.regs
    (Transition.result s.cfg s.mem s.mem (e.exec s.regs s.pc operands))) s

end Sys2Proof.Machine
end

