-- ==== Sys2Proof/Machine/Alu.lean ====
section
/-! DEFINITION. The arithmetic family (41_alu.md): `ADD A,B`. -/

namespace Sys2Proof.Machine

open Sys2Proof

/-- The table entry of `ADD A,B` (R130): sequential, operand width 0. Of `F` it writes the carry alone: no baseline
instruction writes bits 7:1 (R31, D4), and R130's "bits 7:1 = 0" is met wherever they were 0. That they are kept where an
extension or a test has set them is the model's choice of R31 over R130's pseudocode (DESIGN CHOICE, unsafe, log 21). -/
def addABEntry : Entry :=
  { width := 0
    flags := carryMask
    exec := fun x pc _ =>
      .next { a := zext 8 (sum9 x.a x.b), b := x.b, f := mergeFlags carryMask x.f (flagsOfSum (sum9 x.a x.b)) }
        ((pc : Int) + 1) }

/-- `ADD A,B` (R130), with the next-`PC` range check of R112. -/
def execAddAB (s : State) : Host.Outcome State Fault Refusal := .next (runEntry addABEntry [] s)

end Sys2Proof.Machine
end

