-- ==== Sys2Proof/Machine/Illegal.lean ====
section
/-! DEFINITION. The illegal instruction (42_illegal.md). -/

namespace Sys2Proof.Machine

open Sys2Proof

/-- `ILLEGAL` (R140): raises `IllegalInstruction`. The fault records nothing of the opcode byte (R170). -/
def execIllegal (_opcode : Byte) (s : State) : Host.Outcome State Fault Refusal :=
  .next (raise .illegalInstruction s)

end Sys2Proof.Machine
end

