-- ==== Sys2Proof/Syntax.lean ====
section
/-! DEFINITION. The instructions of the baseline table (R83), one constructor per mnemonic of spec/opcode_table.json. -/

namespace Sys2Proof

/-- An instruction. The table's 255 `ILLEGAL` rows are the 255 well-formed values of `illegal` (log 15). -/
inductive Instr where
  /-- `ADD A,B`, opcode 0x80 (R130). -/
  | addAB
  /-- The illegal instruction, with its opcode byte (R140). -/
  | illegal (opcode : Byte)
  deriving DecidableEq, Repr

end Sys2Proof
end

