-- ==== Sys2Proof/Machine/Dispatch.lean ====
section
/-! DEFINITION. One arm per constructor of `Instr`: what an instruction that has been fetched does. -/

namespace Sys2Proof.Machine

open Sys2Proof

def exec (i : Instr) (s : State) : Host.Outcome State Fault Refusal :=
  match i with
  | .addAB => Sys2Proof.Machine.execAddAB s
  | .illegal opcode => Sys2Proof.Machine.execIllegal opcode s

end Sys2Proof.Machine
end

