-- ==== Sys2Proof/WellFormed.lean ====
section
/-! DEFINITION. Which terms of `Instr` stand for a row of the opcode table. -/

namespace Sys2Proof

/-- `illegal` carries an opcode value the baseline table does not assign: any but 0x80 (R83, R142). -/
def Instr.wellFormed : Instr → Bool
  | .addAB => true
  | .illegal opcode => opcode != 0x80

end Sys2Proof
end

