-- ==== Sys2Proof/Decode.lean ====
section
/-! DEFINITION. The instruction-fetch decoder (30_encoding.md) and, after it, the encoder. -/

namespace Sys2Proof

/-- The operations of the baseline table (R82). -/
inductive Operation where
  | addAB
  | illegal
  deriving DecidableEq, Repr

/-- One row of R83's table: the opcode values from `first` to `last` and what they decode to. -/
structure TableRow where
  first : Byte
  last : Byte
  operation : Operation
  /-- Operand width `w` in bytes. -/
  width : Nat
  deriving DecidableEq, Repr

/-- The baseline table, complete for all 256 values (R83). The matcher takes all eight bits (R84). -/
def baselineTable : List TableRow :=
  [ { first := 0x80, last := 0x80, operation := .addAB, width := 0 },
    { first := 0x00, last := 0x7F, operation := .illegal, width := 0 },
    { first := 0x81, last := 0xFF, operation := .illegal, width := 0 } ]

/-- The row holds this opcode value. -/
def TableRow.covers (r : TableRow) (op : Byte) : Bool :=
  decide (r.first ≤ op) && decide (op ≤ r.last)

/-- `decode(op)` of R82 with `EXT = {}`: operation and operand width, keyed on the opcode byte alone. -/
def decodeOpcode (op : Byte) : Operation × Nat :=
  match baselineTable.find? (fun r => r.covers op) with
  | some r => (r.operation, r.width)
  | none => (.illegal, 0)

/-- The instruction an operation and its opcode byte stand for; no baseline operation has operand bytes (R81). -/
def Operation.toInstr (o : Operation) (op : Byte) : Instr :=
  match o with
  | .addAB => .addAB
  | .illegal => .illegal op

/-- Why a list of bytes holds no whole instruction. -/
inductive DecodeError where
  /-- There is no opcode byte. -/
  | noOpcodeByte
  /-- Fewer bytes follow the opcode than its operand width. -/
  | operandBytesMissing
  deriving DecidableEq, Repr

/-- Reads one instruction from a list of bytes and gives the bytes after it (R80, R85, R88). -/
def decode : List Byte → Except DecodeError (Instr × List Byte)
  | [] => .error .noOpcodeByte
  | op :: rest =>
    match decodeOpcode op with
    | (o, w) =>
      if rest.length < w then .error .operandBytesMissing
      else .ok (o.toInstr op, rest.drop w)

/-- The bytes of the instruction (R81, format `OP0`). -/
def encode : Instr → List Byte
  | .addAB => [0x80]
  | .illegal opcode => [opcode]

/-- The bytes, lowest address first, of an instruction whose bits are `w` and of which the table gives `nbits`. The bits
from `nbits` on are 0; the longest instruction is one byte (R88). -/
def wordBytes (nbits w : Nat) : List Byte :=
  (List.range (max 1 (nbits / 8))).map fun k => BitVec.ofNat 8 (w % 2 ^ nbits / 256 ^ k)

/-- The instruction the decoder reads from an instruction whose bits are `w`. -/
def decodeTableWord (nbits w : Nat) : Option Instr :=
  match decode (wordBytes nbits w) with
  | .ok (i, _) => some i
  | .error _ => none

end Sys2Proof
end

