-- ==== Sys2Proof/Machine/Operands.lean ====
section
/-! DEFINITION. Instruction fetch: the opcode byte, the operand bytes (R86, R107, R109), and the readings of operand
bytes R86 names for an entry of `EXT`. The baseline has no operand forms. -/

namespace Sys2Proof.Machine

open Sys2Proof

/-- `w` calls of `FetchByte` from the cursor up, stopping at the first that faults (R109). -/
def fetchOperands (c : Config) (m : Memory) (cursor : Nat) : Nat → Except FaultKind (List Byte)
  | 0 => .ok []
  | w + 1 =>
    match fetchByte c m cursor with
    | .error e => .error e
    | .ok b =>
      match fetchOperands c m (cursor + 1) w with
      | .error e => .error e
      | .ok bs => .ok (b :: bs)

/-- Operand byte `k`, counted from 1, as an unsigned byte (R86). -/
def operandUnsigned (operands : List Byte) (k : Nat) : Nat := (operands.getD (k - 1) 0).toNat

/-- Operand byte `k`, counted from 1, as a signed displacement (R86). -/
def operandSigned (operands : List Byte) (k : Nat) : Int := (operands.getD (k - 1) 0).toInt

/-- All operand bytes as one little-endian number (R57, R86). -/
def operandValue (operands : List Byte) : Nat := leValue operands

/-- Steps 1 to 3 of the cycle for the baseline table: opcode fetch, decode, operand fetch (R107 to R109). -/
def fetchInstr (s : State) : Except FaultKind Instr :=
  match fetchByte s.cfg s.mem s.pc with
  | .error e => .error e
  | .ok op =>
    match decodeOpcode op with
    | (o, w) =>
      match fetchOperands s.cfg s.mem (s.pc + 1) w with
      | .error e => .error e
      | .ok _ => .ok (o.toInstr op)

/-- Puts the bytes of an instruction where the next step fetches. A core that would not fetch there (its state is not
`Ready` or `Running`, or its `PC` lies outside `CodeRegion`) is put through `init` first (log 16). -/
def placeInstr (bytes : List Byte) (s : State) : State :=
  if s.runnable && decide (s.pc < s.cfg.codeLen) then { s with mem := s.mem.storeBytes s.pc bytes }
  else { init s with mem := s.mem.storeBytes 0 bytes }

end Sys2Proof.Machine
end

