-- ==== Sys2Proof/Machine/Cycle.lean ====
section
/-! DEFINITION. The instruction cycle (R106) and the dispatch of `step` on `ES` (R103). -/

namespace Sys2Proof.Machine

open Sys2Proof

/-- `cycle()` (R106): a fault of the fetch is taken; otherwise the fetched instruction is executed. -/
def cycle (s : State) : Host.Outcome State Fault Refusal :=
  match fetchInstr s with
  | .error e => .next (raise e s)
  | .ok i => exec i s

/-- `step()` (R103): nothing changes in `Uninitialized` (R104), `Halted` and `Faulted` (R105). -/
def stepDispatch (s : State) : Host.Outcome State Fault Refusal :=
  match s.es with
  | .uninitialized => .next s
  | .halted => .next s
  | .faulted => .next s
  | .ready => cycle s
  | .running => cycle s

end Sys2Proof.Machine
end

