-- ==== Sys2Proof/Machine/Step.lean ====
section
/-! DEFINITION. One step of the machine, and the state in which the next step fetches a given instruction. -/

namespace Sys2Proof.Machine

open Sys2Proof

/-- One call of `step` (R103). What the call returns to the host is `returned` of the state it leaves
(Machine/Interface.lean). -/
def step (s : State) : Host.Outcome State Fault Refusal := stepDispatch s

/-- The instruction stored where `step` fetches next (log 16). -/
def State.withFetchWord (s : State) (nbits w : Nat) : State := placeInstr (wordBytes nbits w) s

end Sys2Proof.Machine
end

