-- ==== Sys2Proof/Machine/Extension.lean ====
section
/-! DEFINITION. The core under an arbitrary extension `EXT` of the decode table (R5, R90, R150 to R157). The hardware
is `EXT = {}`; statements say that `step` is `stepExt` of the empty map. -/

namespace Sys2Proof.Machine

open Sys2Proof

/-- `EXT`: a partial map from opcode bytes to entries (R90). A value at 0x80 is never used (`decodeExt`). -/
def Ext := Byte → Option Entry

/-- `EXT = {}`, the hardware. -/
def Ext.empty : Ext := fun _ => none

/-- `decode(op)` of R82 for an arbitrary `EXT`; `none` is the illegal entry. -/
def decodeExt (ext : Ext) (op : Byte) : Option Entry :=
  match (decodeOpcode op).1 with
  | .addAB => some addABEntry
  | .illegal => ext op

/-- `cycle()` for an arbitrary `EXT` (R106): the illegal check comes before the operand fetch (R108). -/
def cycleExt (ext : Ext) (s : State) : State :=
  match fetchByte s.cfg s.mem s.pc with
  | .error e => raise e s
  | .ok op =>
    match decodeExt ext op with
    | none => raise .illegalInstruction s
    | some entry =>
      match fetchOperands s.cfg s.mem (s.pc + 1) entry.width with
      | .error e => raise e s
      | .ok operands => runEntry entry operands s

/-- `step()` for an arbitrary `EXT` (R103). -/
def stepExt (ext : Ext) (s : State) : State :=
  match s.es with
  | .uninitialized => s
  | .halted => s
  | .faulted => s
  | .ready => cycleExt ext s
  | .running => cycleExt ext s

/-- `k` steps under `EXT`. -/
def runExt (ext : Ext) : Nat → State → State
  | 0, s => s
  | k + 1, s => runExt ext k (stepExt ext s)

/-- A halt entry that says nothing else (R153, D27). -/
def haltEntry : Entry := { width := 0, flags := 0x00, exec := fun x pc _ => .halt x pc }

/-- The transition ends in a fault or in `Next` with this `pc'`, whatever it reads. -/
def Transition.endsAt (target : Int) : Transition → Prop
  | .next _ pc => pc = target
  | .halt _ _ => False
  | .load _ _ k => ∀ bs, Transition.endsAt target (k bs)
  | .store _ _ _ k => Transition.endsAt target k
  | .outOfBounds => True

/-- Every way the transition ends without a fault leaves the bits of `F` outside `mask` as in `old`. -/
def Transition.keepsFlags (mask old : Byte) : Transition → Prop
  | .next x _ => x.f &&& ~~~mask = old &&& ~~~mask
  | .halt x _ => x.f &&& ~~~mask = old &&& ~~~mask
  | .load _ _ k => ∀ bs, Transition.keepsFlags mask old (k bs)
  | .store _ _ _ k => Transition.keepsFlags mask old k
  | .outOfBounds => True

/-- R150's condition on an entry: the `F` it computes changes only the bits it states (R157). -/
def Entry.definesItsFlags (e : Entry) : Prop :=
  ∀ (x : Regs) (pc : Nat) (operands : List Byte), Transition.keepsFlags e.flags x.f (e.exec x pc operands)

/-- The sequential class (R151): `pc' = pc + 1 + w`, always. -/
def Entry.sequential (e : Entry) : Prop :=
  ∀ (x : Regs) (pc : Nat) (operands : List Byte),
    Transition.endsAt ((pc : Int) + 1 + e.width) (e.exec x pc operands)

/-- The entry of the instruction at `PC`; `none` is the illegal entry. -/
def entryAt (ext : Ext) (s : State) : Option Entry := decodeExt ext (s.mem.readByte s.pc)

/-- The length `1 + w` of the instruction at `PC` (R80); 1 for an illegal byte (R83). -/
def lengthAt (ext : Ext) (s : State) : Nat :=
  match entryAt ext s with
  | some entry => 1 + entry.width
  | none => 1

/-- The lengths of the instructions that `k` steps meet, summed. -/
def lengthSum (ext : Ext) : Nat → State → Nat
  | 0, _ => 0
  | k + 1, s => lengthAt ext s + lengthSum ext k (stepExt ext s)

end Sys2Proof.Machine
end

