-- ==== Sys2Proof/Machine/Interface.lean ====
section
/-! DEFINITION. The interface of the core (R100): construction, and the operations the host may request between steps,
each one atomic transition (R66, R101). There is no other operation: no register write (R29), no memory growth (R52). -/

namespace Sys2Proof.Machine

open Sys2Proof

/-! ### What the host sees -/

/-- The `signal` of a returned pair (R114). -/
inductive Signal where
  | none
  | illegalInstruction
  | outOfBoundsAccess
  | preconditionViolation
  deriving DecidableEq, Repr

/-- The names of the read port (R30). -/
inductive RegName where
  | a
  | b
  | f
  | pc
  deriving DecidableEq, Repr

/-- Codes of `ES` on the status port (R114). -/
def ExecState.code : ExecState → Nat
  | .uninitialized => 0
  | .ready => 1
  | .running => 2
  | .halted => 3
  | .faulted => 4

/-- Codes of `signal` and `CAUSE` (R114, R170). -/
def Signal.code : Signal → Nat
  | .none => 0
  | .illegalInstruction => 1
  | .outOfBoundsAccess => 2
  | .preconditionViolation => 3

/-- Numbers of the registers on the read port (R30). -/
def RegName.code : RegName → Nat
  | .a => 0
  | .b => 1
  | .f => 2
  | .pc => 3

/-- `CAUSE` as a signal (R28, R114). -/
def causeSignal : Option FaultKind → Signal
  | none => .none
  | some .illegalInstruction => .illegalInstruction
  | some .outOfBoundsAccess => .outOfBoundsAccess

/-- The pair a `step` that leaves this state returns (R103, R106). It is determined by the state left (log 7). -/
def returned (s : State) : ExecState × Signal :=
  match s.es with
  | .uninitialized => (.uninitialized, .preconditionViolation)
  | .faulted => (.faulted, causeSignal s.cause)
  | .ready => (.ready, .none)
  | .running => (.running, .none)
  | .halted => (.halted, .none)

/-- The read of a register by name, at its full width (R30). -/
def State.readReg (s : State) : RegName → Nat
  | .a => s.regs.a.toNat
  | .b => s.regs.b.toNat
  | .f => s.regs.f.toNat
  | .pc => s.pc

/-- The `busy` output as the host samples it: between operations, always low (R101). -/
def State.busy (_ : State) : Bool := false

/-! ### Construction -/

/-- Construction of the core bound to a memory image (R6, R200). The registers and `PC` are unspecified, so they are
arguments: a statement holds for every value (U3, log 5). -/
def construct (c : Config) (image : List Byte) (x : Regs) (pc : Nat) : Host.Outcome State Fault Refusal :=
  if c.wf then
    if image.length = c.total then
      .next { regs := x, pc := pc, es := .uninitialized, cause := none,
              mem := Memory.storeBytes [] 0 image, cfg := c }
    else .fault .imageLengthMismatch
  else .fault .invalidParameters

/-! ### Operations -/

/-- The operations of R100. -/
inductive HostOp where
  | init
  | step
  | readReg (r : RegName)
  /-- The status port: `ES` and `CAUSE` (R30). -/
  | readStatus
  | readMem (addr : Nat)
  | writeMem (addr : Nat) (b : Byte)
  deriving DecidableEq, Repr

/-- What an operation answers. -/
inductive Response where
  | done
  /-- What `step` returned. -/
  | stepped (es : ExecState) (signal : Signal)
  | register (value : Nat)
  | status (es : ExecState) (cause : Option FaultKind)
  | byte (b : Byte)
  deriving DecidableEq, Repr

/-- One operation of the interface, over any step function of the core. -/
def hostCall (stepFn : State → Host.Outcome State Fault Refusal) (op : HostOp) (s : State) :
    Host.Outcome (State × Response) Fault Refusal :=
  match op with
  | .init => .next (init s, .done)
  | .step =>
    match stepFn s with
    | .next t => .next (t, .stepped (returned t).1 (returned t).2)
    | .fault e => .fault e
    | .refused r => .refused r
  | .readReg r => .next (s, .register (s.readReg r))
  | .readStatus => .next (s, .status s.es s.cause)
  | .readMem addr =>
    if addr < s.cfg.total then .next (s, .byte (s.mem.readByte addr)) else .refused .hostAccessOutOfBounds
  | .writeMem addr b =>
    if addr < s.cfg.total then .next ({ s with mem := s.mem.writeByte addr b }, .done)
    else .refused .hostAccessOutOfBounds

/-- One operation on the hardware. -/
def hostOp (op : HostOp) (s : State) : Host.Outcome (State × Response) Fault Refusal := hostCall step op s

/-- One operation on a core with an extension. -/
def hostOpExt (ext : Ext) (op : HostOp) (s : State) : Host.Outcome (State × Response) Fault Refusal :=
  hostCall (fun t => .next (stepExt ext t)) op s

/-- A sequence of operations in the one total order of R65, with their answers. -/
def hostRunWith (one : HostOp → State → Host.Outcome (State × Response) Fault Refusal) :
    List HostOp → State → Host.Outcome (State × List Response) Fault Refusal
  | [], s => .next (s, [])
  | op :: ops, s =>
    match one op s with
    | .fault e => .fault e
    | .refused r => .refused r
    | .next (t, r) =>
      match hostRunWith one ops t with
      | .fault e => .fault e
      | .refused e => .refused e
      | .next (u, rs) => .next (u, r :: rs)

/-- A sequence of operations on the hardware. -/
def hostRun (ops : List HostOp) (s : State) : Host.Outcome (State × List Response) Fault Refusal :=
  hostRunWith hostOp ops s

/-- A sequence of operations on a core with an extension. -/
def hostRunExt (ext : Ext) (ops : List HostOp) (s : State) : Host.Outcome (State × List Response) Fault Refusal :=
  hostRunWith (hostOpExt ext) ops s

end Sys2Proof.Machine
end

