-- ==== Sys2Proof/Safety.lean ====
section
/-! DEFINITION. What counts as a well-formed state and as a safe run, in the terms statements use. -/

namespace Sys2Proof.Machine

open Sys2Proof

/-- `PC` indexes `CodeRegion` whenever `ES` is `Ready`, `Running` or `Faulted` (R24). -/
abbrev State.pcInCode (s : State) : Prop :=
  (s.es = .ready ∨ s.es = .running ∨ s.es = .faulted) → s.pc < s.cfg.codeLen

/-- `CAUSE` is `None` exactly when `ES` is not `Faulted` (R28). -/
abbrev State.causeAgrees (s : State) : Prop := s.cause = none ↔ s.es ≠ .faulted

/-- The invariant of every core, whatever its extension: the parameters are in range (R5), the image is canonical and has
no byte at `TOTAL` or above (R34), `PC` (R24) and `CAUSE` (R28) are as the spec says. -/
abbrev State.Inv (s : State) : Prop :=
  s.cfg.wf ∧ s.mem.wf = true ∧ s.mem.fits s.cfg.total = true ∧ s.pcInCode ∧ s.causeAgrees

/-- `F` is 0x00 or 0x01 (R31). -/
abbrev State.flagsInRange (s : State) : Prop := s.regs.f = 0x00 ∨ s.regs.f = 0x01

/-- `k` steps of the hardware, stopping at the first that answers no next state. It is the host's `Host.Core.run` of the
model's core (`runSteps_eq_run`, Laws/Step.lean), with its types in the model's own names. -/
def runSteps : Nat → State → Host.Outcome State Fault Refusal
  | 0, s => .next s
  | k + 1, s =>
    match step s with
    | .next t => runSteps k t
    | .fault e => .fault e
    | .refused e => .refused e

/-- Start and `k` steps on: no state on the way is `Faulted` (R187). -/
def FaultFree (k : Nat) (s : State) : Prop :=
  ∀ j, j ≤ k → ∃ t, runSteps j s = .next t ∧ t.es ≠ .faulted

/-- Two states that agree on everything but the image, and on the image below `CODE_LEN`. -/
def SameButData (s t : State) : Prop :=
  t = { s with mem := t.mem } ∧ ∀ a, a < s.cfg.codeLen → t.mem.readByte a = s.mem.readByte a

end Sys2Proof.Machine
end

