-- ==== Sys2Proof/Certificates/Slice0/Obligations.lean ====
section
/-! DEFINITION. The statements about the model, from the numbered rules of spec/. -/

open Sys2Proof Sys2Proof.Machine

/-! ### Encoding -/

/-- Decoding an encoded well-formed instruction gives it back, with the bytes after it untouched. -/
def Obligations.DecodeOfEncode : Prop :=
  ∀ (i : Instr) (rest : List Byte), i.wellFormed = true → decode (encode i ++ rest) = .ok (i, rest)

/-- Whatever decodes is well formed and is its own encoding, so that each list of bytes has one reading. -/
def Obligations.EncodeOfDecode : Prop :=
  ∀ (bytes : List Byte) (i : Instr) (rest : List Byte), decode bytes = .ok (i, rest) →
    i.wellFormed = true ∧ bytes = encode i ++ rest

/-- R83: the complete baseline table, operand widths included. -/
def Obligations.BaselineTableComplete : Prop :=
  ∀ op : Byte,
    decodeTableWord 8 op.toNat = (if op = 0x80 then some .addAB else some (.illegal op)) ∧
    (decodeOpcode op).2 = 0

/-- Opcode words written out from R83 and R84. -/
def Obligations.DecodeWordsFromTheSpec : Prop :=
  decode [0b10000000] = .ok (.addAB, []) ∧
  decode [0b00000000] = .ok (.illegal 0x00, []) ∧
  decode [0b01111111] = .ok (.illegal 0x7F, []) ∧
  decode [0b10000001] = .ok (.illegal 0x81, []) ∧
  decode [0b10001000] = .ok (.illegal 0x88, []) ∧
  decode [0b11111111, 0b10000000] = .ok (.illegal 0xFF, [0x80])

/-- R82 for the table as data: every opcode value lies in exactly one row. -/
def Obligations.TableRowsPartitionOpcodes : Prop :=
  ∀ op : Byte, (baselineTable.filter fun r => r.covers op).length = 1

/-! ### `ADD A,B` and `ILLEGAL` -/

/-- R130: the result, the flags, the program counter and the frame of `ADD A,B`, where it completes and where it
faults; the next state is given whole, for every `F` before. Where bits 7:1 were 0, as R31 says they always are on the
hardware, `F` is R130's pseudocode; where they were set, that they are kept is the model's choice (log 21). -/
def Obligations.AddABResult : Prop :=
  decode [0x80] = .ok (.addAB, []) ∧
  ∀ s : State,
    (s.pc + 1 < s.cfg.codeLen →
      exec .addAB s = .next { s with
        regs := { a := BitVec.ofNat 8 ((s.regs.a.toNat + s.regs.b.toNat) % 256)
                  b := s.regs.b
                  f := (s.regs.f &&& 0xFE) ||| if 256 ≤ s.regs.a.toNat + s.regs.b.toNat then 0x01 else 0x00 }
        pc := s.pc + 1
        es := .running }) ∧
    (s.pc + 1 < s.cfg.codeLen → reservedFlags s.regs.f = 0 →
      exec .addAB s = .next { s with
        regs := { a := BitVec.ofNat 8 ((s.regs.a.toNat + s.regs.b.toNat) % 256)
                  b := s.regs.b
                  f := if 256 ≤ s.regs.a.toNat + s.regs.b.toNat then 0x01 else 0x00 }
        pc := s.pc + 1
        es := .running }) ∧
    (s.cfg.codeLen ≤ s.pc + 1 →
      exec .addAB s = .next { s with es := .faulted, cause := some .outOfBoundsAccess })

/-- The sum law (R131), over naturals and over two's-complement integers. The last clause, that the carry is all of `F` that
changes, is R31's and R130's; where bits 7:1 were set before it is the model's choice (log 21). -/
def Obligations.AddABArithmeticLaw : Prop :=
  ∀ s : State, s.pc + 1 < s.cfg.codeLen →
    ∃ t, exec .addAB s = .next t ∧
      t.regs.a.toNat = (s.regs.a.toNat + s.regs.b.toNat) % 256 ∧
      (carryFlag t.regs.f).toNat = (s.regs.a.toNat + s.regs.b.toNat) / 256 ∧
      s.regs.a.toNat + s.regs.b.toNat = 256 * (carryFlag t.regs.f).toNat + t.regs.a.toNat ∧
      t.regs.a.toInt = (s.regs.a.toInt + s.regs.b.toInt).bmod 256 ∧
      reservedFlags t.regs.f = reservedFlags s.regs.f

/-- The old flags are no input of `ADD A,B`: there is no add-with-carry. From another `F` all but `F` comes out the same,
the new carry too, and from one that differs in the old carry alone `F` as well. That set bits 7:1 pass through is the model's choice (log 21). -/
def Obligations.AddABIgnoresOldFlags : Prop :=
  ∀ (s : State) (f : Byte), s.pc + 1 < s.cfg.codeLen →
    ∃ t u, exec .addAB s = .next t ∧ exec .addAB { s with regs := { s.regs with f := f } } = .next u ∧
      u = { t with regs := { t.regs with f := u.regs.f } } ∧
      carryFlag u.regs.f = carryFlag t.regs.f ∧
      (reservedFlags f = reservedFlags s.regs.f → u = t)

/-- The frame of `ADD A,B`, on both of its ways: `B`, the parameters, every byte of memory and the bits 7:1 of `F` are as
before; a step that faults leaves all but `ES` and `CAUSE`; one that completes leaves `CAUSE`. That bits 7:1 are kept where
they were set is the model's choice (log 21). -/
def Obligations.AddABFrame : Prop :=
  ∀ s t : State, exec .addAB s = .next t →
    t.regs.b = s.regs.b ∧ t.cfg = s.cfg ∧ (∀ a, t.mem.readByte a = s.mem.readByte a) ∧
    reservedFlags t.regs.f = reservedFlags s.regs.f ∧
    ((t.es = .running ∧ t.pc = s.pc + 1 ∧ t.cause = s.cause) ∨
     t = { s with es := .faulted, cause := some .outOfBoundsAccess })

/-- No baseline instruction writes the bits 7:1 of `F` (R31, D4), from any state and under any extension: neither the
instructions themselves nor a step that runs one. Where the bits were set, following R31 over R130's pseudocode is the
model's choice (log 21). -/
def Obligations.NoBaselineInstructionWritesReservedFlags : Prop :=
  (∀ (i : Instr) (s t : State), exec i s = .next t → reservedFlags t.regs.f = reservedFlags s.regs.f) ∧
  (∀ s t : State, step s = .next t → reservedFlags t.regs.f = reservedFlags s.regs.f) ∧
  (∀ (ext : Ext) (s : State), s.mem.readByte s.pc = 0x80 →
    reservedFlags (stepExt ext s).regs.f = reservedFlags s.regs.f)

/-- R140: every opcode but 0x80 is illegal; the instruction raises `IllegalInstruction` at every `PC` and changes nothing
but `ES` and `CAUSE`, the next state being given whole; a step that meets such a byte, at the last code offset too, returns
the fault, and a second step does nothing more. -/
def Obligations.IllegalRaisesItsFault : Prop :=
  (∀ op : Byte, op ≠ 0x80 → decode [op] = .ok (.illegal op, [])) ∧
  (∀ (op : Byte) (s : State),
    exec (.illegal op) s = .next { s with es := .faulted, cause := some .illegalInstruction }) ∧
  ∀ s : State, s.runnable = true → s.pc < s.cfg.codeLen → s.mem.readByte s.pc ≠ 0x80 →
    ∃ t, t = { s with es := .faulted, cause := some .illegalInstruction } ∧
      hostOp .step s = .next (t, .stepped .faulted .illegalInstruction) ∧
      hostOp .step t = .next (t, .stepped .faulted .illegalInstruction)

/-! ### `step` -/

/-- A step runs the instruction that the bytes at `PC`, up to the end of `CodeRegion`, decode to; the step adds nothing
around it (`PC` is moved by the instruction's own commit). -/
def Obligations.StepRunsTheDecodedInstruction : Prop :=
  ∀ (s : State) (i : Instr) (rest : List Byte), s.runnable = true →
    decode (s.mem.loadBytes s.pc (s.cfg.codeLen - s.pc)) = .ok (i, rest) → step s = exec i s

/-- A step whose `PC` lies outside `CodeRegion` faults with `OutOfBoundsAccess`, whatever the image holds there. -/
def Obligations.StepOutsideCodeFaults : Prop :=
  ∀ s : State, s.runnable = true → s.cfg.codeLen ≤ s.pc →
    step s = .next { s with es := .faulted, cause := some .outOfBoundsAccess }

/-- R104: `step` in `Uninitialized` changes nothing, signals `PreconditionViolation`, and `init` works after it. -/
def Obligations.StepBeforeInitSignals : Prop :=
  ∀ s : State, s.es = .uninitialized →
    hostOp .step s = .next (s, .stepped .uninitialized .preconditionViolation) ∧
    ∃ t, hostOp .init s = .next (t, .done) ∧ t.es = .ready

/-- R105: `step` in `Halted` or `Faulted` changes nothing and returns the condition again. -/
def Obligations.StepAfterTheEndIsNoOp : Prop :=
  ∀ s : State,
    (s.es = .halted → hostOp .step s = .next (s, .stepped .halted .none)) ∧
    (s.es = .faulted → hostOp .step s = .next (s, .stepped .faulted (causeSignal s.cause)))

/-- R115, for every extension: `Ready` and `Running` behave alike, and the first step ends in `Running`, `Halted` or
`Faulted`. -/
def Obligations.ReadyAndRunningStepAlike : Prop :=
  ∀ (ext : Ext) (s : State),
    stepExt ext { s with es := .ready } = stepExt ext { s with es := .running } ∧
    (s.es = .ready →
      (stepExt ext s).es = .running ∨ (stepExt ext s).es = .halted ∨ (stepExt ext s).es = .faulted)

/-- R114: the returned pair in terms of the state left, and its codes. -/
def Obligations.StepReturnsStateAndSignal : Prop :=
  (∀ (ext : Ext) (s : State), ∃ e g, hostOpExt ext .step s = .next (stepExt ext s, .stepped e g) ∧
    e = (stepExt ext s).es ∧ e ≠ .ready ∧
    (g = .preconditionViolation ↔ e = .uninitialized) ∧
    (e = .faulted → g = causeSignal (stepExt ext s).cause) ∧
    (e = .running ∨ e = .halted → g = .none)) ∧
  [ExecState.uninitialized, .ready, .running, .halted, .faulted].map ExecState.code = [0, 1, 2, 3, 4] ∧
  [Signal.none, .illegalInstruction, .outOfBoundsAccess, .preconditionViolation].map Signal.code = [0, 1, 2, 3] ∧
  [none, some FaultKind.illegalInstruction, some .outOfBoundsAccess].map (fun c => (causeSignal c).code) = [0, 1, 2]

/-- Every step of the hardware answers a next state, which is never `Ready`. -/
def Obligations.EveryStepReturns : Prop :=
  ∀ s : State, ∃ t, step s = .next t ∧ t.es ≠ .ready

/-- How `PC` and the registers may move on the hardware: `init` clears them, a completing step moves `PC` by 1 and keeps
`B`, and every other operation, a faulting step among them, leaves them. -/
def Obligations.WhoWritesTheRegisters : Prop :=
  ∀ (op : HostOp) (s t : State) (r : Response), hostOp op s = .next (t, r) →
    (op = .init ∧ t.pc = 0 ∧ t.regs = { a := 0, b := 0, f := 0 }) ∨
    (op = .step ∧ t.es = .running ∧ t.pc = s.pc + 1 ∧ t.regs.b = s.regs.b) ∨
    (t.pc = s.pc ∧ t.regs = s.regs)

/-! ### Faults -/

/-- R175, for every extension: a step that enters `Faulted` changes `ES` and `CAUSE` and nothing else, whatever its
instruction had computed or staged, and returns the fault. -/
def Obligations.FaultEntryIsPrecise : Prop :=
  ∀ (ext : Ext) (s : State), s.es ≠ .faulted → (stepExt ext s).es = .faulted →
    ∃ x, stepExt ext s = { s with es := .faulted, cause := some x } ∧
      returned (stepExt ext s) = (.faulted, causeSignal (some x))

/-- Only `init` leaves `Faulted`; every other operation keeps the state, the cause, the registers and `PC`. -/
def Obligations.FaultedIsLeftByInitAlone : Prop :=
  ∀ (ext : Ext) (op : HostOp) (s t : State) (r : Response), hostOpExt ext op s = .next (t, r) → s.es = .faulted →
    (op = .init ∧ t = init s) ∨
    (t.es = .faulted ∧ t.cause = s.cause ∧ t.regs = s.regs ∧ t.pc = s.pc)

/-! ### Reset and construction -/

/-- R102 and R201: `init` from any state; twice equals once. -/
def Obligations.InitResetsAllButMemory : Prop :=
  ∀ s : State,
    hostOp .init s = .next
      ({ regs := { a := 0, b := 0, f := 0 }, pc := 0, es := .ready, cause := none, mem := s.mem, cfg := s.cfg }, .done) ∧
    init (init s) = init s

/-- R200: a core built on an image of `TOTAL` bytes, with its registers any values. -/
def Obligations.ConstructionBindsTheImage : Prop :=
  ∀ (c : Config) (image : List Byte) (x : Regs) (pc : Nat), c.wf → image.length = c.total →
    ∃ s, construct c image x pc = .next s ∧ s.es = .uninitialized ∧ s.cause = none ∧
      s.regs = x ∧ s.pc = pc ∧ s.cfg = c ∧
      (∀ a, a < c.total → s.mem.readByte a = image.getD a 0) ∧
      s.mem.wf = true ∧ s.mem.fits c.total = true

/-- R6: an image of another length builds no core. -/
def Obligations.WrongImageBuildsNoCore : Prop :=
  ∀ (c : Config) (image : List Byte) (x : Regs) (pc : Nat), image.length ≠ c.total →
    ∃ e, construct c image x pc = .fault e

/-- `State.reset` is construction followed by `init`. Its sizes and its zero image are the model's choice (log 1, log 3,
log 4); its registers, `PC`, `ES` and `CAUSE` are those of R201. -/
def Obligations.ResetIsConstructionThenInit : Prop :=
  ∀ (x : Regs) (pc : Nat), ∃ s,
    construct resetConfig (List.replicate resetConfig.total 0x00) x pc = .next s ∧ State.reset = init s

/-! ### Memory -/

/-- R53: `MemRead` with its exact bounds check, as bytes in ascending order and as a number. R53
admits `n >= 1`; the case `n = 0` is the model's choice (log 17). -/
def Obligations.MemReadContract : Prop :=
  ∀ (c : Config) (m : Memory) (addr n : Nat),
    (c.total < addr + n → memRead c m addr n = .error .outOfBoundsAccess ∧
      memReadValue c m addr n = .error .outOfBoundsAccess) ∧
    (addr + n ≤ c.total →
      memRead c m addr n = .ok ((List.range n).map fun i => m.readByte (addr + i)) ∧
      memReadValue c m addr n =
        .ok (((List.range n).map fun i => (m.readByte (addr + i)).toNat * 256 ^ i).sum))

/-- R54: `MemWrite`, all or nothing; byte `i` of the value goes to `addr + i` and no other byte changes. R54 admits
`n >= 1`; the case `n = 0` is the model's choice (log 17). -/
def Obligations.MemWriteContract : Prop :=
  ∀ (c : Config) (m : Memory) (addr n v : Nat), m.wf = true → v < 2 ^ (8 * n) →
    (c.total < addr + n → memWrite c m addr n v = .error .outOfBoundsAccess) ∧
    (addr + n ≤ c.total → ∃ m', memWrite c m addr n v = .ok m' ∧
      (∀ i, i < n → (m'.readByte (addr + i)).toNat = v / 2 ^ (8 * i) % 256) ∧
      (∀ a, a < addr ∨ addr + n ≤ a → m'.readByte a = m.readByte a))

/-- A value written is the value read back at the same place and width. -/
def Obligations.WrittenValueReadsBack : Prop :=
  ∀ (c : Config) (m m' : Memory) (addr : Int) (n v : Nat), m.wf = true → v < 2 ^ (8 * n) →
    memWrite c m addr n v = .ok m' → memReadValue c m' addr n = .ok v

/-- A negative address is out of bounds; an access that ends on the last byte of the image is not. For accesses of
width 0 and writes of a `v` too wide for its width, which R53 and R54 do not admit, the outcome is the model's choice (log 17). -/
def Obligations.BoundsAreExact : Prop :=
  (∀ (c : Config) (m : Memory) (addr : Int) (n v : Nat), addr < 0 →
    memRead c m addr n = .error .outOfBoundsAccess ∧ memWrite c m addr n v = .error .outOfBoundsAccess) ∧
  (∀ (c : Config) (m : Memory) (n : Nat), n ≤ c.total →
    (∃ bs, memRead c m ((c.total : Int) - n) n = .ok bs) ∧
    memRead c m ((c.total : Int) - n) (n + 1) = .error .outOfBoundsAccess)

/-- An instruction-side read stops at `CODE_LEN`, also where the image goes on. -/
def Obligations.FetchByteStopsAtCodeLen : Prop :=
  ∀ (c : Config) (m : Memory) (addr : Nat),
    (c.codeLen ≤ addr → fetchByte c m addr = .error .outOfBoundsAccess) ∧
    (addr < c.codeLen → fetchByte c m addr = .ok (m.readByte addr))

/-- R109: the operand fetch reads `w` bytes after the opcode, in ascending order, or faults as a whole. -/
def Obligations.OperandFetchContract : Prop :=
  ∀ (c : Config) (m : Memory) (pc w : Nat), pc < c.codeLen →
    (c.codeLen < pc + 1 + w → fetchOperands c m (pc + 1) w = .error .outOfBoundsAccess) ∧
    (pc + 1 + w ≤ c.codeLen →
      fetchOperands c m (pc + 1) w = .ok ((List.range w).map fun k => m.readByte (pc + 1 + k)))

/-- Images in canonical form that read alike are equal data. -/
def Obligations.CanonicalImagesThatReadAlikeAreEqual : Prop :=
  ∀ m m' : Memory, m.wf = true → m'.wf = true → (∀ a, m.readByte a = m'.readByte a) → m = m'

/-! ### The host's operations -/

/-- A sequence of reads changes nothing, and made again it gives the same answers (R36). A memory read gives the byte held.
That a read outside the image is refused is the model's choice (log 9, after U18): R71 says only that it is the host's error
and changes no state. -/
def Obligations.HostReadsChangeNothing : Prop :=
  (∀ (ops : List HostOp) (s t : State) (rs : List Response),
    (∀ op ∈ ops, op ≠ .init ∧ op ≠ .step ∧ ∀ addr b, op ≠ .writeMem addr b) →
    hostRun ops s = .next (t, rs) → t = s ∧ hostRun (ops ++ ops) s = .next (s, rs ++ rs)) ∧
  ∀ (s : State) (addr : Nat),
    (addr < s.cfg.total → hostOp (.readMem addr) s = .next (s, .byte (s.mem.readByte addr))) ∧
    (s.cfg.total ≤ addr → hostOp (.readMem addr) s = .refused .hostAccessOutOfBounds)

/-- R30: the read port by name and by number, at full width, and the status port. -/
def Obligations.RegisterReadPort : Prop :=
  [RegName.a, .b, .f, .pc].map RegName.code = [0, 1, 2, 3] ∧
  ∀ s : State,
    hostOp (.readReg .a) s = .next (s, .register s.regs.a.toNat) ∧
    hostOp (.readReg .b) s = .next (s, .register s.regs.b.toNat) ∧
    hostOp (.readReg .f) s = .next (s, .register s.regs.f.toNat) ∧
    hostOp (.readReg .pc) s = .next (s, .register s.pc) ∧
    hostOp .readStatus s = .next (s, .status s.es s.cause) ∧
    [ExecState.uninitialized, .ready, .running, .halted, .faulted].map ExecState.code = [0, 1, 2, 3, 4] ∧
    [none, some FaultKind.illegalInstruction, some .outOfBoundsAccess].map (fun c => (causeSignal c).code) = [0, 1, 2]

/-- The host's write of one byte, in every execution state and anywhere in the image, `CodeRegion` included. That a write
outside the image is refused is the model's choice (log 9, after U18), which no rule states. -/
def Obligations.HostWriteChangesOneByte : Prop :=
  ∀ (s : State) (addr : Nat) (b : Byte), s.mem.wf = true →
    (addr < s.cfg.total → ∃ m, hostOp (.writeMem addr b) s = .next ({ s with mem := m }, .done) ∧
      ∀ a, m.readByte a = if a = addr then b else s.mem.readByte a) ∧
    (s.cfg.total ≤ addr → hostOp (.writeMem addr b) s = .refused .hostAccessOutOfBounds)

/-- A byte the host writes at `PC` between two steps is the byte the next step decodes. -/
def Obligations.HostWriteIsSeenByTheNextStep : Prop :=
  ∀ (s : State) (b : Byte), s.mem.wf = true → s.runnable = true → s.pc < s.cfg.codeLen →
    ∃ t, hostOp (.writeMem s.pc b) s = .next (t, .done) ∧
      (b = 0x80 → step t = exec .addAB t) ∧ (b ≠ 0x80 → step t = exec (.illegal b) t)

/-- No operation changes a parameter: the regions never move and the image never grows. -/
def Obligations.ParametersNeverChange : Prop :=
  ∀ (ext : Ext) (op : HostOp) (s t : State) (r : Response), hostOpExt ext op s = .next (t, r) → t.cfg = s.cfg

/-- The instruction `withFetchWord` places is the one the next step runs (log 16). -/
def Obligations.PlacedWordIsRun : Prop :=
  ∀ (s : State) (w : Nat) (i : Instr), s.Inv → decodeTableWord 8 w = some i →
    step (s.withFetchWord 8 w) = exec i (s.withFetchWord 8 w)

/-! ### Invariants -/

/-- The reset state meets the invariant. -/
def Obligations.ResetMeetsTheInvariant : Prop := State.reset.Inv

/-- Every step of the hardware keeps the invariant: parameters in range, canonical image of `TOTAL` bytes, `PC` in
`CodeRegion`, `CAUSE` latched exactly in `Faulted`. -/
def Obligations.StepKeepsTheInvariant : Prop :=
  ∀ s t : State, s.Inv → step s = .next t → t.Inv

/-- In every state reached from construction by operations of the interface, under every extension, the invariant holds;
in particular `PC` indexes `CodeRegion` in `Ready`, `Running` and `Faulted`. -/
def Obligations.EveryReachedStateMeetsTheInvariant : Prop :=
  ∀ (ext : Ext) (c : Config) (image : List Byte) (x : Regs) (pc : Nat) (s t : State) (ops : List HostOp)
    (rs : List Response), construct c image x pc = .next s → hostRunExt ext ops s = .next (t, rs) → t.Inv

/-- On the hardware every state reached from `init` has `A = 0`, `B = 0`, `F = 0`, whatever the host writes to memory. -/
def Obligations.RegistersStayZeroAfterInit : Prop :=
  ∀ (s t : State) (ops : List HostOp) (rs : List Response), hostRun ops (init s) = .next (t, rs) →
    t.regs = { a := 0, b := 0, f := 0 }

/-- R158: on the hardware `Halted` is not reached, the engine writes no memory, `PC` moves by 1 at most, and no byte of
`DataRegion` has an effect on a step. -/
def Obligations.BaselineNeverHaltsOrTouchesData : Prop :=
  (∀ (s t : State) (ops : List HostOp) (rs : List Response), s.es ≠ .halted →
    hostRun ops s = .next (t, rs) → t.es ≠ .halted) ∧
  (∀ s t : State, step s = .next t → t.mem = s.mem ∧ (t.pc = s.pc ∨ t.pc = s.pc + 1)) ∧
  (∀ s s' t : State, SameButData s s' → step s = .next t → step s' = .next { t with mem := s'.mem })

/-- The reserved bits of `F` stay 0 on the hardware. -/
def Obligations.StepKeepsReservedFlagsZero : Prop :=
  ∀ s t : State, s.flagsInRange → step s = .next t → t.flagsInRange

/-! ### Runs -/

/-- R187: a step never clears `Faulted`, and `k` steps run without a fault exactly when the next `k` bytes are 0x80 and
`PC + k` is still inside `CodeRegion`. -/
def Obligations.FaultFreeRunsAreExactlyAddRuns : Prop :=
  (∀ s t : State, s.es = .faulted → step s = .next t → t.es = .faulted) ∧
  (∀ (s : State) (k : Nat), s.runnable = true → s.pc < s.cfg.codeLen →
    (FaultFree k s ↔ (∀ j, j < k → s.mem.readByte (s.pc + j) = 0x80) ∧ s.pc + k < s.cfg.codeLen))

/-- `k` steps over `k` bytes 0x80 that stay inside `CodeRegion` add `B` to `A` `k` times and move `PC` by `k`. -/
def Obligations.AddRunComputesMultiple : Prop :=
  ∀ (s : State) (k : Nat), s.runnable = true → (∀ j, j < k → s.mem.readByte (s.pc + j) = 0x80) →
    s.pc + k < s.cfg.codeLen →
    ∃ t, runSteps k s = .next t ∧ t.pc = s.pc + k ∧ t.runnable = true ∧
      t.regs.a.toNat = (s.regs.a.toNat + k * s.regs.b.toNat) % 256 ∧ t.regs.b = s.regs.b ∧
      t.mem = s.mem ∧ t.cause = s.cause ∧ t.cfg = s.cfg

/-- A run that is stepped `CODE_LEN - PC` times has ended in `Faulted`, whatever the image holds. -/
def Obligations.EveryRunEndsInFaulted : Prop :=
  ∀ s : State, s.runnable = true → s.pc < s.cfg.codeLen →
    ∃ t, runSteps (s.cfg.codeLen - s.pc) s = .next t ∧ t.es = .faulted

/-! ### Extensions of the decode table

The `F` committed is `limitRegs` of the computed one: the entry's own for an entry within R150's contract
(`LawfulEntryCommitsItsOwnResult`), and the model's choice for any other (log 22). -/

/-- The hardware is the core under the empty extension. -/
def Obligations.StepIsTheEmptyExtension : Prop :=
  ∀ s : State, step s = .next (stepExt Ext.empty s)

/-- 0x80 is `ADD A,B` under every extension, and the illegal values are those outside the extension's domain. -/
def Obligations.ExtensionKeepsTheBaseline : Prop :=
  ∀ (ext : Ext) (s : State), s.runnable = true → s.pc < s.cfg.codeLen →
    (s.mem.readByte s.pc = 0x80 → exec .addAB s = .next (stepExt ext s)) ∧
    (s.mem.readByte s.pc ≠ 0x80 → ext (s.mem.readByte s.pc) = none →
      stepExt ext s = { s with es := .faulted, cause := some .illegalInstruction })

/-- A control transfer to an in-range target commits it, with the flag bits the entry states; any other target faults with no effect; operand bytes past the
end of `CodeRegion` fault before the entry runs. -/
def Obligations.ControlTransferIsRangeChecked : Prop :=
  ∀ (ext : Ext) (s : State) (e : Entry), s.runnable = true → s.pc < s.cfg.codeLen →
    s.mem.readByte s.pc ≠ 0x80 → ext (s.mem.readByte s.pc) = some e →
    (s.cfg.codeLen < s.pc + 1 + e.width →
      stepExt ext s = { s with es := .faulted, cause := some .outOfBoundsAccess }) ∧
    (∀ (x : Regs) (target : Int), s.pc + 1 + e.width ≤ s.cfg.codeLen →
      e.exec s.regs s.pc (s.mem.loadBytes (s.pc + 1) e.width) = .next x target →
      (0 ≤ target ∧ target < s.cfg.codeLen →
        stepExt ext s = { s with regs := limitRegs e.flags s.regs x, pc := target.toNat, es := .running }) ∧
      (target < 0 ∨ (s.cfg.codeLen : Int) ≤ target →
        stepExt ext s = { s with es := .faulted, cause := some .outOfBoundsAccess }))

/-- A halt entry commits without a range check of `PC` and enters `Halted`; one that says nothing else changes nothing
but `ES`; after it a step changes nothing. -/
def Obligations.HaltEntryEntersHalted : Prop :=
  ∀ (ext : Ext) (s : State) (e : Entry), s.runnable = true → s.pc + 1 + e.width ≤ s.cfg.codeLen →
    s.mem.readByte s.pc ≠ 0x80 → ext (s.mem.readByte s.pc) = some e →
    (∀ (x : Regs) (pc' : Nat),
      e.exec s.regs s.pc (s.mem.loadBytes (s.pc + 1) e.width) = .halt x pc' →
      stepExt ext s = { s with regs := limitRegs e.flags s.regs x, pc := pc', es := .halted } ∧
      returned (stepExt ext s) = (.halted, .none) ∧
      stepExt ext (stepExt ext s) = stepExt ext s) ∧
    (e = haltEntry → stepExt ext s = { s with es := .halted })

/-- An entry that stores and then goes on: the bytes land when the access is in bounds, anywhere in the image, `CodeRegion`
included; otherwise nothing does. For `n = 0` or a `v` wider than `n` bytes, which R54 does not admit, the outcome is the
model's choice (log 17). -/
def Obligations.StoreEntryIsBoundsChecked : Prop :=
  ∀ (ext : Ext) (s : State) (e : Entry) (x : Regs) (addr target : Int) (n v : Nat), s.runnable = true →
    s.pc + 1 + e.width ≤ s.cfg.codeLen → s.mem.readByte s.pc ≠ 0x80 → ext (s.mem.readByte s.pc) = some e →
    e.exec s.regs s.pc (s.mem.loadBytes (s.pc + 1) e.width) = .store addr n v (.next x target) →
    0 ≤ target → target < s.cfg.codeLen →
    (0 ≤ addr ∧ addr + n ≤ s.cfg.total →
      stepExt ext s = { s with regs := limitRegs e.flags s.regs x,
                               mem := s.mem.storeBytes addr.toNat (leBytes n v),
                               pc := target.toNat, es := .running }) ∧
    (addr < 0 ∨ (s.cfg.total : Int) < addr + n →
      stepExt ext s = { s with es := .faulted, cause := some .outOfBoundsAccess })

/-- An entry that loads and then goes on: it gets the bytes when the access is in bounds, anywhere in the image; otherwise
it faults with no effect. For `n = 0`, which R53 does not admit, the outcome is the model's choice (log 17). -/
def Obligations.LoadEntryIsBoundsChecked : Prop :=
  ∀ (ext : Ext) (s : State) (e : Entry) (addr target : Int) (n : Nat) (g : List Byte → Regs), s.runnable = true →
    s.pc + 1 + e.width ≤ s.cfg.codeLen → s.mem.readByte s.pc ≠ 0x80 → ext (s.mem.readByte s.pc) = some e →
    e.exec s.regs s.pc (s.mem.loadBytes (s.pc + 1) e.width) = .load addr n (fun bs => .next (g bs) target) →
    0 ≤ target → target < s.cfg.codeLen →
    (0 ≤ addr ∧ addr + n ≤ s.cfg.total →
      stepExt ext s = { s with regs := limitRegs e.flags s.regs (g (s.mem.loadBytes addr.toNat n)),
                               pc := target.toNat, es := .running }) ∧
    (addr < 0 ∨ (s.cfg.total : Int) < addr + n →
      stepExt ext s = { s with es := .faulted, cause := some .outOfBoundsAccess })

/-- R150 and R157: a step changes no bit of `F` but those that the entry it runs states; a step at an
illegal byte changes none. For an entry whose transition computes another change, dropping it is the model's choice
(log 22). -/
def Obligations.StepWritesOnlyTheStatedFlags : Prop :=
  ∀ (ext : Ext) (s : State) (i : Nat),
    (∀ e, entryAt ext s = some e → e.flags.getLsbD i = false) →
    (stepExt ext s).regs.f.getLsbD i = s.regs.f.getLsbD i

/-- An entry that meets R150's condition on flags commits exactly the result its transition computes, `F` included. -/
def Obligations.LawfulEntryCommitsItsOwnResult : Prop :=
  ∀ (e : Entry) (operands : List Byte) (s : State), e.definesItsFlags →
    runEntry e operands s = commit (Transition.result s.cfg s.mem s.mem (e.exec s.regs s.pc operands)) s

/-- A bit of `F[7:1]` that no entry of the extension states reads as 0 in every state reached from `init`; one that an entry
states need not (R31, R157). -/
def Obligations.UnstatedFlagsStayZero : Prop :=
  ∀ (ext : Ext) (i : Nat), 1 ≤ i → (∀ op e, ext op = some e → e.flags.getLsbD i = false) →
    ∀ (s t : State) (ops : List HostOp) (rs : List Response), hostRunExt ext ops (init s) = .next (t, rs) →
      t.regs.f.getLsbD i = false

/-- A byte stored and then loaded within one step: the load gets the byte as the step found it, and the store is in the
result (R65). For a `v` of 256 or more, that its low byte is stored is the model's choice (log 17). -/
def Obligations.ReadAfterStoreInOneStepSeesTheOldByte : Prop :=
  ∀ (c : Config) (m : Memory) (x : Regs) (addr v : Nat) (pc : Int), addr < c.total →
    Transition.result c m m (.store addr 1 v (.load addr 1 fun bs => .next { x with a := bs.getD 0 0 } pc)) =
      .next { x with a := m.readByte addr } (m.writeByte addr (BitVec.ofNat 8 v)) pc

/-- R118, for every extension: if the instructions that `k` steps meet are of the sequential class and none of the steps
faults, `PC` has moved by the sum of their lengths. -/
def Obligations.PcIsMonotonicUnderSequentialEntries : Prop :=
  ∀ (ext : Ext) (k : Nat) (s : State),
    (∀ j, j < k → ∀ e, entryAt ext (runExt ext j s) = some e → e.sequential) →
    (∀ j, j ≤ k → (runExt ext j s).runnable = true) →
    (runExt ext k s).pc = s.pc + lengthSum ext k s
end

