-- ==== Sys2Proof/Laws/Decode.lean ====
section
/-! SUPPORT. What the decoder gives for the one assigned opcode and for every other. -/

namespace Sys2Proof

theorem decodeOpcode_add : decodeOpcode 0x80 = (.addAB, 0) := by decide

/-- The same with the opcode as simp writes it. -/
@[simp] theorem decodeOpcode_128 : decodeOpcode 128#8 = (.addAB, 0) := decodeOpcode_add

theorem decodeOpcode_of_ne {op : Byte} (h : op ≠ 0x80) : decodeOpcode op = (.illegal, 0) := by
  revert h; revert op; decide

/-- No baseline operation has operand bytes (R83). -/
@[simp] theorem decodeOpcode_width (op : Byte) : (decodeOpcode op).2 = 0 := by
  by_cases h : op = 0x80
  · subst h; rfl
  · rw [decodeOpcode_of_ne h]

theorem decode_cons (op : Byte) (rest : List Byte) :
    decode (op :: rest) = .ok ((decodeOpcode op).1.toInstr op, rest) := by
  simp [decode]

end Sys2Proof
end

