-- ==== Sys2Proof/Laws/Memory.lean ====
section
/-! SUPPORT. The laws of the image: a read after a write, and the canonical form, which every memory operation keeps. -/

namespace Sys2Proof.Machine

open Sys2Proof

namespace Memory

@[simp] theorem readByte_nil (a : Nat) : readByte [] a = unlistedByte := rfl

theorem readByte_cons (x : Nat) (b : Byte) (m : Memory) (a : Nat) :
    readByte ((x, b) :: m) a = if x = a then b else readByte m a := rfl

theorem wfFrom_cons (low x : Nat) (b : Byte) (m : Memory) :
    wfFrom low ((x, b) :: m) = true ↔ low ≤ x ∧ b ≠ unlistedByte ∧ wfFrom (x + 1) m = true := by
  simp [wfFrom, and_assoc]

theorem wfFrom_mono {low low' : Nat} {m : Memory} (h : low' ≤ low) (hm : wfFrom low m = true) :
    wfFrom low' m = true := by
  cases m with
  | nil => rfl
  | cons c m =>
    obtain ⟨x, b⟩ := c
    rw [wfFrom_cons] at hm ⊢
    exact ⟨h.trans hm.1, hm.2⟩

/-- Below the first address that may be listed, every byte is unlisted. -/
theorem readByte_of_lt {low a : Nat} {m : Memory} (hm : wfFrom low m = true) (ha : a < low) :
    readByte m a = unlistedByte := by
  induction m generalizing low with
  | nil => rfl
  | cons c m ih =>
    obtain ⟨x, b⟩ := c
    obtain ⟨hx, -, hm⟩ := (wfFrom_cons ..).1 hm
    rw [readByte_cons, if_neg (by omega)]
    exact ih hm (by omega)

theorem readByte_listCell (a : Nat) (b : Byte) {m : Memory} (hm : wfFrom (a + 1) m = true) (a' : Nat) :
    readByte (listCell a b m) a' = if a = a' then b else readByte m a' := by
  unfold listCell
  split
  · next hb =>
    split
    · next h => subst h; rw [readByte_of_lt hm (by omega), hb]
    · rfl
  · rfl

theorem wfFrom_listCell {low a : Nat} (b : Byte) {m : Memory} (ha : low ≤ a) (hm : wfFrom (a + 1) m = true) :
    wfFrom low (listCell a b m) = true := by
  unfold listCell
  split
  · exact wfFrom_mono (by omega) hm
  · next hb => exact (wfFrom_cons ..).2 ⟨ha, hb, hm⟩

theorem wfFrom_writeByte {low a : Nat} (b : Byte) {m : Memory} (ha : low ≤ a) (hm : wfFrom low m = true) :
    wfFrom low (writeByte m a b) = true := by
  induction m generalizing low with
  | nil => exact wfFrom_listCell b ha rfl
  | cons c m ih =>
    obtain ⟨x, c⟩ := c
    obtain ⟨hx, hc, hm⟩ := (wfFrom_cons ..).1 hm
    unfold writeByte
    split
    · next h => exact wfFrom_listCell b ha ((wfFrom_cons ..).2 ⟨h, hc, hm⟩)
    · split
      · next h => subst h; exact wfFrom_listCell b hx hm
      · exact (wfFrom_cons ..).2 ⟨hx, hc, ih (by omega) hm⟩

/-- A read after a write of one byte (R65). -/
theorem readByte_writeByte_of_wfFrom {low : Nat} {m : Memory} (hm : wfFrom low m = true) (a : Nat) (b : Byte)
    (a' : Nat) : readByte (writeByte m a b) a' = if a = a' then b else readByte m a' := by
  induction m generalizing low with
  | nil => exact readByte_listCell a b rfl a'
  | cons c m ih =>
    obtain ⟨x, c⟩ := c
    obtain ⟨-, hc, hm⟩ := (wfFrom_cons ..).1 hm
    unfold writeByte
    split
    · next h => exact readByte_listCell a b ((wfFrom_cons ..).2 ⟨h, hc, hm⟩) a'
    · split
      · next h =>
        subst h
        rw [readByte_listCell _ b hm, readByte_cons]
        split <;> rfl
      · next h1 h2 =>
        rw [readByte_cons, readByte_cons, ih hm]
        split <;> split <;> first | rfl | omega

theorem readByte_writeByte {m : Memory} (hm : m.wf = true) (a : Nat) (b : Byte) (a' : Nat) :
    (m.writeByte a b).readByte a' = if a = a' then b else m.readByte a' :=
  readByte_writeByte_of_wfFrom hm a b a'

theorem wf_writeByte {m : Memory} (hm : m.wf = true) (a : Nat) (b : Byte) : (m.writeByte a b).wf = true :=
  wfFrom_writeByte b (Nat.zero_le a) hm

theorem fits_cons (total : Nat) (c : Host.Cell) (m : Memory) :
    fits total (c :: m) = true ↔ c.1 < total ∧ fits total m = true := by
  simp [fits]

theorem fits_listCell {total a : Nat} (b : Byte) {m : Memory} (ha : a < total) (hm : fits total m = true) :
    fits total (listCell a b m) = true := by
  unfold listCell
  split
  · exact hm
  · exact (fits_cons ..).2 ⟨ha, hm⟩

theorem fits_writeByte {total a : Nat} (b : Byte) {m : Memory} (ha : a < total) (hm : fits total m = true) :
    fits total (writeByte m a b) = true := by
  induction m with
  | nil => exact fits_listCell b ha rfl
  | cons c m ih =>
    obtain ⟨x, c⟩ := c
    obtain ⟨hx, hm'⟩ := (fits_cons ..).1 hm
    unfold writeByte
    split
    · exact fits_listCell b ha hm
    · split
      · exact fits_listCell b ha hm'
      · exact (fits_cons ..).2 ⟨hx, ih hm'⟩

theorem wf_storeBytes (bs : List Byte) {m : Memory} (hm : m.wf = true) (a : Nat) :
    (m.storeBytes a bs).wf = true := by
  induction bs generalizing m a with
  | nil => exact hm
  | cons b bs ih => exact ih (wf_writeByte hm a b) (a + 1)

theorem fits_storeBytes (bs : List Byte) {total a : Nat} {m : Memory} (hm : fits total m = true)
    (ha : a + bs.length ≤ total) : (m.storeBytes a bs).fits total = true := by
  induction bs generalizing m a with
  | nil => exact hm
  | cons b bs ih =>
    rw [List.length_cons] at ha
    exact ih (fits_writeByte b (by omega) hm) (by omega)

/-- Everything `storeBytes` can do to a byte. -/
theorem readByte_storeBytes (bs : List Byte) {m : Memory} (hm : m.wf = true) (a a' : Nat) :
    (m.storeBytes a bs).readByte a' =
      if a ≤ a' ∧ a' < a + bs.length then bs.getD (a' - a) 0 else m.readByte a' := by
  induction bs generalizing m a with
  | nil => rw [if_neg (by simp)]; rfl
  | cons b bs ih =>
    rw [storeBytes, ih (wf_writeByte hm a b), readByte_writeByte hm]
    rw [List.length_cons]
    by_cases h : a = a'
    · subst h
      rw [if_neg (by omega), if_pos rfl, if_pos (by omega), Nat.sub_self]
      rfl
    · by_cases h' : a + 1 ≤ a' ∧ a' < a + 1 + bs.length
      · rw [if_pos h', if_pos (by omega), show a' - a = a' - (a + 1) + 1 by omega, List.getD_cons_succ]
      · rw [if_neg h', if_neg h, if_neg (by omega)]

@[simp] theorem length_loadBytes (m : Memory) (a n : Nat) : (m.loadBytes a n).length = n := by
  induction n generalizing a with
  | zero => rfl
  | succ n ih => simp [loadBytes, ih]

theorem getElem_loadBytes (m : Memory) (a n i : Nat) (h : i < (m.loadBytes a n).length) :
    (m.loadBytes a n)[i] = m.readByte (a + i) := by
  induction n generalizing a i with
  | zero => simp [loadBytes] at h
  | succ n ih =>
    cases i with
    | zero => rfl
    | succ i =>
      simp only [loadBytes, List.getElem_cons_succ]
      rw [ih]
      congr 1
      omega

end Memory

@[simp] theorem length_leBytes (n v : Nat) : (leBytes n v).length = n := by
  induction n generalizing v with
  | zero => rfl
  | succ n ih => simp [leBytes, ih]

theorem leValue_leBytes (n v : Nat) : leValue (leBytes n v) = v % 256 ^ n := by
  induction n generalizing v with
  | zero => simp [leBytes, leValue, Nat.mod_one]
  | succ n ih =>
    rw [leBytes, leValue, ih, BitVec.toNat_ofNat, show 256 ^ (n + 1) = 256 * 256 ^ n from Nat.pow_succ', Nat.mod_mul]

end Sys2Proof.Machine
end

