-- ==== Sys2Proof/Laws/State.lean ====
section
/-! SUPPORT. One lemma per field for each update of State that has a name, so that no proof unfolds it. -/

namespace Sys2Proof.Machine

open Sys2Proof

@[simp] theorem raise_regs (x : FaultKind) (s : State) : (raise x s).regs = s.regs := rfl
@[simp] theorem raise_pc (x : FaultKind) (s : State) : (raise x s).pc = s.pc := rfl
@[simp] theorem raise_es (x : FaultKind) (s : State) : (raise x s).es = .faulted := rfl
@[simp] theorem raise_cause (x : FaultKind) (s : State) : (raise x s).cause = some x := rfl
@[simp] theorem raise_mem (x : FaultKind) (s : State) : (raise x s).mem = s.mem := rfl
@[simp] theorem raise_cfg (x : FaultKind) (s : State) : (raise x s).cfg = s.cfg := rfl

@[simp] theorem init_regs (s : State) : (init s).regs = { a := 0, b := 0, f := 0 } := rfl
@[simp] theorem init_pc (s : State) : (init s).pc = 0 := rfl
@[simp] theorem init_es (s : State) : (init s).es = .ready := rfl
@[simp] theorem init_cause (s : State) : (init s).cause = none := rfl
@[simp] theorem init_mem (s : State) : (init s).mem = s.mem := rfl
@[simp] theorem init_cfg (s : State) : (init s).cfg = s.cfg := rfl

@[simp] theorem limitRegs_a (mask : Byte) (old new : Regs) : (limitRegs mask old new).a = new.a := rfl
@[simp] theorem limitRegs_b (mask : Byte) (old new : Regs) : (limitRegs mask old new).b = new.b := rfl
@[simp] theorem limitRegs_f (mask : Byte) (old new : Regs) :
    (limitRegs mask old new).f = mergeFlags mask old.f new.f := rfl

/-- Everything `mergeFlags` does to a bit. -/
theorem getLsbD_mergeFlags (mask old new : Byte) (i : Nat) :
    (mergeFlags mask old new).getLsbD i = if mask.getLsbD i then new.getLsbD i else old.getLsbD i := by
  by_cases hi : i < 8
  · cases h : mask[i] <;> simp [mergeFlags, BitVec.getLsbD_eq_getElem hi, h]
  · simp [mergeFlags, BitVec.getLsbD_of_ge _ _ (Nat.le_of_not_lt hi)]

/-- An `F` that differs from the old one in no bit outside the mask is kept as it is. -/
theorem mergeFlags_of_agree {mask old new : Byte} (h : new &&& ~~~mask = old &&& ~~~mask) :
    mergeFlags mask old new = new := by
  apply BitVec.eq_of_getLsbD_eq
  intro i hi
  rw [getLsbD_mergeFlags]
  have hb := congrArg (fun v => v.getLsbD i) h
  simp only [BitVec.getLsbD_eq_getElem hi, BitVec.getElem_and, BitVec.getElem_not] at hb ⊢
  cases hm : mask[i]
  · simpa [hm] using hb.symm
  · rfl

@[simp] theorem mergeFlags_self (mask f : Byte) : mergeFlags mask f f = f := mergeFlags_of_agree rfl

/-- Masking twice is masking once. -/
@[simp] theorem mergeFlags_idem (mask old new : Byte) :
    mergeFlags mask old (mergeFlags mask old new) = mergeFlags mask old new := by
  apply BitVec.eq_of_getLsbD_eq
  intro i hi
  simp only [getLsbD_mergeFlags]
  split <;> rfl

@[simp] theorem carryFlag_mergeFlags (old new : Byte) : carryFlag (mergeFlags carryMask old new) = carryFlag new := by
  rw [carryFlag, getLsbD_mergeFlags, if_pos (by decide), carryFlag]

@[simp] theorem reservedFlags_mergeFlags (old new : Byte) :
    reservedFlags (mergeFlags carryMask old new) = reservedFlags old := by
  apply BitVec.eq_of_getLsbD_eq
  intro i hi
  simp only [reservedFlags, BitVec.getLsbD_extractLsb', getLsbD_mergeFlags]
  rw [if_neg]
  simp [carryMask]

@[simp] theorem limitRegs_self (mask : Byte) (x : Regs) : limitRegs mask x x = x := by simp [limitRegs]

theorem runnable_iff (s : State) : s.runnable = true ↔ s.es = .ready ∨ s.es = .running := by
  cases h : s.es <;> simp [State.runnable, h]

end Sys2Proof.Machine
end

