-- ==== Sys2Proof/Laws/Ops.lean ====
section
/-! SUPPORT. One lemma for each shared operation that says everything it can do. -/

namespace Sys2Proof.Machine

open Sys2Proof

theorem inBounds_iff (c : Config) (addr : Int) (n : Nat) :
    inBounds c addr n = true ↔ 0 ≤ addr ∧ addr + n ≤ c.total := by
  simp [inBounds]

theorem inCode_iff (c : Config) (pc : Int) : inCode c pc = true ↔ 0 ≤ pc ∧ pc < c.codeLen := by
  simp [inCode]

theorem memRead_cases (c : Config) (m : Memory) (addr : Int) (n : Nat) :
    (inBounds c addr n = true ∧ memRead c m addr n = .ok (m.loadBytes addr.toNat n)) ∨
    (inBounds c addr n = false ∧ memRead c m addr n = .error .outOfBoundsAccess) := by
  unfold memRead
  cases inBounds c addr n <;> simp

theorem memWrite_cases (c : Config) (m : Memory) (addr : Int) (n v : Nat) :
    (inBounds c addr n = true ∧ memWrite c m addr n v = .ok (m.storeBytes addr.toNat (leBytes n v))) ∨
    (inBounds c addr n = false ∧ memWrite c m addr n v = .error .outOfBoundsAccess) := by
  unfold memWrite
  cases inBounds c addr n <;> simp

theorem memWrite_keeps {c : Config} {m m' : Memory} {addr : Int} {n v : Nat}
    (h : memWrite c m addr n v = .ok m') (hm : m.wf = true) (hf : m.fits c.total = true) :
    m'.wf = true ∧ m'.fits c.total = true := by
  obtain ⟨hb, h'⟩ | ⟨-, h'⟩ := memWrite_cases c m addr n v
  · rw [h'] at h
    cases h
    obtain ⟨h0, h1⟩ := (inBounds_iff ..).1 hb
    exact ⟨Memory.wf_storeBytes _ hm _, Memory.fits_storeBytes _ hf (by simp; omega)⟩
  · rw [h'] at h
    cases h

theorem fetchByte_cases (c : Config) (m : Memory) (addr : Nat) :
    (addr < c.codeLen ∧ fetchByte c m addr = .ok (m.readByte addr)) ∨
    (c.codeLen ≤ addr ∧ fetchByte c m addr = .error .outOfBoundsAccess) := by
  unfold fetchByte
  split
  · exact .inl ⟨‹_›, rfl⟩
  · exact .inr ⟨by omega, rfl⟩

theorem fetchOperands_error {c : Config} {m : Memory} {cursor w : Nat} {e : FaultKind}
    (h : fetchOperands c m cursor w = .error e) : e = .outOfBoundsAccess := by
  induction w generalizing cursor with
  | zero => cases h
  | succ w ih =>
    unfold fetchOperands at h
    obtain ⟨-, hb⟩ | ⟨-, hb⟩ := fetchByte_cases c m cursor
    · rw [hb] at h
      cases ho : fetchOperands c m (cursor + 1) w with
      | error e' => rw [ho] at h; cases h; exact ih ho
      | ok bs => rw [ho] at h; cases h
    · rw [hb] at h
      cases h
      rfl

/-- What the fetch of an instruction gives: the byte at `PC` decoded, or the fault of an address outside `CodeRegion`. -/
theorem fetchInstr_cases (s : State) :
    (s.pc < s.cfg.codeLen ∧
      fetchInstr s = .ok ((decodeOpcode (s.mem.readByte s.pc)).1.toInstr (s.mem.readByte s.pc))) ∨
    (s.cfg.codeLen ≤ s.pc ∧ fetchInstr s = .error .outOfBoundsAccess) := by
  unfold fetchInstr
  obtain ⟨h, hb⟩ | ⟨h, hb⟩ := fetchByte_cases s.cfg s.mem s.pc
  · exact .inl ⟨h, by simp [hb, fetchOperands]⟩
  · exact .inr ⟨h, by rw [hb]⟩

/-- The result of a transition keeps the canonical form and the size of the image. -/
def Result.Keeps (c : Config) : Result → Prop
  | .next _ m _ => m.wf = true ∧ m.fits c.total = true
  | .halt _ m _ => m.wf = true ∧ m.fits c.total = true
  | .outOfBounds => True

theorem result_keeps (c : Config) (start : Memory) (t : Transition) {staged : Memory}
    (hm : staged.wf = true) (hf : staged.fits c.total = true) :
    (Transition.result c start staged t).Keeps c := by
  induction t generalizing staged with
  | next x pc => exact ⟨hm, hf⟩
  | halt x pc => exact ⟨hm, hf⟩
  | load addr n k ih =>
    unfold Transition.result
    split
    · exact ih _ hm hf
    · trivial
  | store addr n v k ih =>
    unfold Transition.result
    split
    · next h => exact ih (memWrite_keeps h hm hf).1 (memWrite_keeps h hm hf).2
    · trivial
  | outOfBounds => trivial

theorem limitFlags_keeps {c : Config} {r : Result} (mask : Byte) (old : Regs) (h : r.Keeps c) :
    (r.limitFlags mask old).Keeps c := by
  cases r <;> exact h

/-- Everything a commit can do. -/
theorem commit_cases (r : Result) (s : State) :
    (∃ x m pc, r = .next x m pc ∧ 0 ≤ pc ∧ pc < s.cfg.codeLen ∧
      commit r s = { s with regs := x, mem := m, pc := pc.toNat, es := .running }) ∨
    (∃ x m pc, r = .halt x m pc ∧ commit r s = { s with regs := x, mem := m, pc := pc, es := .halted }) ∨
    commit r s = raise .outOfBoundsAccess s := by
  cases r with
  | next x m pc =>
    by_cases h : inCode s.cfg pc = true
    · obtain ⟨h0, h1⟩ := (inCode_iff ..).1 h
      exact .inl ⟨x, m, pc, rfl, h0, h1, by simp [commit, h]⟩
    · exact .inr (.inr (by simp [commit, h]))
  | halt x m pc => exact .inr (.inl ⟨x, m, pc, rfl, rfl⟩)
  | outOfBounds => exact .inr (.inr rfl)

/-- Everything one entry can do to a state: commit in `Running`, commit in `Halted`, or fault. -/
theorem runEntry_cases (e : Entry) (operands : List Byte) (s : State) :
    (∃ x m pc, Transition.result s.cfg s.mem s.mem (e.exec s.regs s.pc operands) = .next x m pc ∧
      0 ≤ pc ∧ pc < s.cfg.codeLen ∧
      runEntry e operands s =
        { s with regs := limitRegs e.flags s.regs x, mem := m, pc := pc.toNat, es := .running }) ∨
    (∃ x m pc, Transition.result s.cfg s.mem s.mem (e.exec s.regs s.pc operands) = .halt x m pc ∧
      runEntry e operands s =
        { s with regs := limitRegs e.flags s.regs x, mem := m, pc := pc, es := .halted }) ∨
    runEntry e operands s = raise .outOfBoundsAccess s := by
  unfold runEntry
  cases Transition.result s.cfg s.mem s.mem (e.exec s.regs s.pc operands) with
  | next x m pc =>
    by_cases h : inCode s.cfg pc = true
    · obtain ⟨h0, h1⟩ := (inCode_iff ..).1 h
      exact .inl ⟨x, m, pc, rfl, h0, h1, by simp [Result.limitFlags, commit, h]⟩
    · exact .inr (.inr (by simp [Result.limitFlags, commit, h]))
  | halt x m pc => exact .inr (.inl ⟨x, m, pc, rfl, rfl⟩)
  | outOfBounds => exact .inr (.inr rfl)

end Sys2Proof.Machine
end

