-- ==== Sys2Proof/Laws/PerInstr.lean ====
section
/-! SUPPORT. Families of lemmas with one lemma per constructor of Instr. -/

namespace Sys2Proof.Laws.EncodedLength

/-- In the baseline an instruction's encoding is its opcode byte alone: `1 + w` bytes with `w = 0` (R80, R88). -/
def Statement (i : Instr) : Prop :=
  ∃ op : Byte, encode i = [op] ∧ (encode i).length = 1 + (decodeOpcode op).2

theorem addAB : Statement .addAB := ⟨0x80, rfl, rfl⟩

theorem illegal (opcode : Byte) : Statement (.illegal opcode) := ⟨opcode, rfl, by simp [encode]⟩

end Sys2Proof.Laws.EncodedLength
end

