-- ==== Sys2Proof/Laws/Step.lean ====
section
/-! SUPPORT. The dispatch of `step` and of `stepExt` on the execution state, and runs of steps. -/

namespace Sys2Proof.Machine

open Sys2Proof

theorem step_of_runnable {s : State} (h : s.runnable = true) : step s = cycle s := by
  obtain h | h := (runnable_iff s).1 h <;> simp [step, stepDispatch, h]

theorem step_of_not_runnable {s : State} (h : s.runnable = false) : step s = .next s := by
  cases he : s.es <;> simp [State.runnable, he] at h <;> simp [step, stepDispatch, he]

theorem stepExt_of_runnable (ext : Ext) {s : State} (h : s.runnable = true) : stepExt ext s = cycleExt ext s := by
  obtain h | h := (runnable_iff s).1 h <;> simp [stepExt, h]

theorem stepExt_of_not_runnable (ext : Ext) {s : State} (h : s.runnable = false) : stepExt ext s = s := by
  cases he : s.es <;> simp [State.runnable, he] at h <;> simp [stepExt, he]

/-- Inside `CodeRegion` the cycle runs the instruction the byte at `PC` decodes to. -/
theorem cycle_of_lt {s : State} (h : s.pc < s.cfg.codeLen) :
    cycle s = exec ((decodeOpcode (s.mem.readByte s.pc)).1.toInstr (s.mem.readByte s.pc)) s := by
  obtain ⟨-, h'⟩ | ⟨h', -⟩ := fetchInstr_cases s
  · simp [cycle, h']
  · omega

/-- Outside it the opcode fetch faults. -/
theorem cycle_of_le {s : State} (h : s.cfg.codeLen ≤ s.pc) : cycle s = .next (raise .outOfBoundsAccess s) := by
  obtain ⟨h', -⟩ | ⟨-, h'⟩ := fetchInstr_cases s
  · omega
  · simp [cycle, h']

@[simp] theorem runSteps_zero (s : State) : runSteps 0 s = .next s := rfl

theorem runSteps_succ {k : Nat} {s t : State} (h : step s = .next t) : runSteps (k + 1) s = runSteps k t := by
  simp [runSteps, h]

/-- `runSteps` is the host's run of the model's core. -/
theorem runSteps_eq_run (k : Nat) (s : State) : runSteps k s = Host.Core.run Sys2Proof.core k s := by
  induction k generalizing s with
  | zero => rfl
  | succ k ih =>
    cases h : step s with
    | next t =>
      have h' : Sys2Proof.core.step s = .next t := h
      simp only [runSteps, Host.Core.run, h, h']
      exact ih t
    | fault e =>
      have h' : Sys2Proof.core.step s = .fault e := h
      simp only [runSteps, Host.Core.run, h, h']
      rfl
    | refused e =>
      have h' : Sys2Proof.core.step s = .refused e := h
      simp only [runSteps, Host.Core.run, h, h']
      rfl

end Sys2Proof.Machine
end

