-- ==== Sys2Proof/Tests/Slice0.lean ====
section
/-! SUPPORT. Tests whose expected results are the spec's own vectors (95_test_vectors.md), the smoke tests of the syntax,
and, for each statement with hypotheses, a witness that meets them. -/

namespace Sys2Proof.Tests

open Sys2Proof Sys2Proof.Machine

/-! ### Helpers -/

/-- `CODE_LEN = 4`, `DATA_LEN = 4`, the sizes of section 2.3 of the vectors. -/
def cfg4 : Config := { codeLen := 4, dataLen := 4, pcw := 2, aw := 3 }

/-- `CODE_LEN = 8`, `DATA_LEN = 8`, the sizes of section 2.4. -/
def cfg8 : Config := { codeLen := 8, dataLen := 8, pcw := 3, aw := 4 }

/-- `CODE_LEN = 16`, `DATA_LEN = 4`, the sizes of Part 4. -/
def cfg16 : Config := { codeLen := 16, dataLen := 4, pcw := 4, aw := 5 }

/-- An image whose first bytes are these. -/
def image (bytes : List Byte) : Memory := Memory.storeBytes [] 0 bytes

/-- A start state imposed by a test (R35), in `Running`. -/
def at4 (a b f : Byte) (pc : Nat) (bytes : List Byte) : State :=
  { regs := { a := a, b := b, f := f }, pc := pc, es := .running, cause := none, mem := image bytes, cfg := cfg4 }

/-- A start state of Part 4. -/
def at16 (a b : Byte) (pc : Nat) (bytes : List Byte) : State :=
  { regs := { a := a, b := b, f := 0 }, pc := pc, es := .running, cause := none, mem := image bytes, cfg := cfg16 }

/-- The next state of an outcome, if there is one. -/
def stateOf : Host.Outcome State Fault Refusal → Option State
  | .next s => some s
  | .fault _ => none
  | .refused _ => none

/-- The part of a state the spec's vectors list. -/
structure Seen where
  a : Byte
  b : Byte
  f : Byte
  pc : Nat
  es : ExecState
  cause : Option FaultKind
  deriving DecidableEq, Repr

def seen (s : State) : Seen := ⟨s.regs.a, s.regs.b, s.regs.f, s.pc, s.es, s.cause⟩

/-- What the vectors list of the state after one step. -/
def stepSeen (s : State) : Option Seen :=
  (stateOf (step s)).map seen

/-! ### Syntax and decoding -/

/-- The one check of `wellFormed`: 0x80 is no illegal opcode (R83). -/
theorem test_illegal_80_is_ill_formed : (Instr.illegal 0x80).wellFormed = false := by decide

/-- V3. -/
theorem test_decode_80 : decode [0b10000000] = .ok (.addAB, []) := by decide

/-- Section 2.2: the neighbours of 0x80. -/
theorem test_decode_neighbours :
    [0x7F, 0x81].map (fun op => decode [op]) = [.ok (.illegal 0x7F, []), .ok (.illegal 0x81, [])] := by decide

/-- Section 2.2, the count test. -/
theorem test_one_legal_opcode :
    ((List.range 256).filter fun w => decodeTableWord 8 w = some .addAB) = [0x80] := by decide

theorem test_no_bytes_is_rejected : decode [] = .error .noOpcodeByte := by decide

/-! ### `ADD A,B` and `ILLEGAL`, one step each -/

/-- V1. -/
theorem test_add_10_5 : stepSeen (at4 10 5 0 0 [0x80]) = some ⟨15, 5, 0, 1, .running, none⟩ := by decide

/-- V2. -/
theorem test_add_250_10 : stepSeen (at4 250 10 0 0 [0x80]) = some ⟨4, 10, 1, 1, .running, none⟩ := by decide

/-- V4. -/
theorem test_illegal_00 :
    stepSeen (at4 10 5 1 0 [0x00]) = some ⟨10, 5, 1, 0, .faulted, some .illegalInstruction⟩ := by decide

/-- S5: the illegal byte at the last code offset. -/
theorem test_illegal_at_the_end :
    stepSeen (at4 1 2 0 3 [0x80, 0x80, 0x80, 0x00]) = some ⟨1, 2, 0, 3, .faulted, some .illegalInstruction⟩ := by decide

/-- Section 2.1, rows of the value and carry table: (A, B, F before) to (A, F after). -/
theorem test_add_table :
    ([(0, 0, 1), (2, 254, 0), (255, 255, 1), (127, 1, 0), (200, 100, 0), (3, 0, 1)] : List (Byte × Byte × Byte)).map
      (fun r => (stateOf (exec .addAB (at4 r.1 r.2.1 r.2.2 0 []))).map fun t => (t.regs.a, t.regs.f)) =
    [some (0, 0), some (0, 1), some (254, 1), some (128, 0), some (44, 1), some (3, 0)] := by decide

/-! ### `step` by execution state and position (section 2.3) -/

/-- S4. -/
theorem test_add_at_the_end :
    stepSeen (at4 1 2 0 3 [0x80, 0x80, 0x80, 0x80]) = some ⟨1, 2, 0, 3, .faulted, some .outOfBoundsAccess⟩ := by decide

/-- S8: no byte of `DataRegion` is executed. -/
theorem test_pc_in_data :
    stepSeen (at4 1 2 0 4 [0, 0, 0, 0, 0x80]) = some ⟨1, 2, 0, 4, .faulted, some .outOfBoundsAccess⟩ := by decide

/-- S6 and S7. -/
theorem test_ended_steps_change_nothing :
    let s := at4 1 2 1 3 [0x80, 0x80, 0x80, 0x80]
    step { s with es := .faulted, cause := some .illegalInstruction } =
      .next { s with es := .faulted, cause := some .illegalInstruction } ∧
    step { s with es := .halted } = .next { s with es := .halted } := ⟨rfl, rfl⟩

/-- V11. -/
theorem test_step_before_init :
    hostOp .step { at4 9 9 1 2 [] with es := .uninitialized } =
      .next ({ at4 9 9 1 2 [] with es := .uninitialized }, .stepped .uninitialized .preconditionViolation) := rfl

/-- S9. -/
theorem test_init :
    seen (init { at4 9 9 1 3 [] with es := .faulted, cause := some .outOfBoundsAccess }) =
      ⟨0, 0, 0, 0, .ready, none⟩ := by decide

/-- A word placed at reset is what the next step runs. -/
theorem test_fetch_word_at_reset :
    stepSeen (State.reset.withFetchWord 8 0x80) = some ⟨0, 0, 0, 1, .running, none⟩ ∧
    stepSeen (State.reset.withFetchWord 8 0xFF) = some ⟨0, 0, 0, 0, .faulted, some .illegalInstruction⟩ := by decide

/-! ### Memory primitives (section 2.4) -/

theorem test_mem_read :
    let m := ((image []).writeByte 14 0x34).writeByte 15 0x12
    memReadValue cfg8 m 14 2 = .ok 0x1234 ∧ memRead cfg8 m 15 1 = .ok [0x12] ∧
    memRead cfg8 m 16 1 = .error .outOfBoundsAccess ∧ memRead cfg8 m 15 2 = .error .outOfBoundsAccess ∧
    memRead cfg8 m (2 ^ 4 + 3) 1 = .error .outOfBoundsAccess ∧ memRead cfg8 m 7 2 = .ok [0, 0] := by decide

theorem test_mem_write :
    memWrite cfg8 [] 15 2 0xBEEF = .error .outOfBoundsAccess ∧
    memWrite cfg8 [] 14 2 0xBEEF = .ok [(14, 0xEF), (15, 0xBE)] ∧
    memWrite cfg8 [] 0 1 0x80 = .ok [(0, 0x80)] := by decide

theorem test_fetch_byte :
    fetchByte cfg8 [(7, 1), (8, 2)] 7 = .ok 1 ∧ fetchByte cfg8 [(7, 1), (8, 2)] 8 = .error .outOfBoundsAccess := by decide

/-- Writing what an unlisted byte reads as takes the cell out of the list. -/
theorem test_write_zero_unlists : Memory.writeByte [(1, 5), (3, 7)] 3 0 = [(1, 5)] := by decide

/-! ### The illustrative extension of Part 4 -/

/-- `X_JMP a`. -/
def xJmp : Entry := { width := 1, flags := 0x00, exec := fun x _ ops => .next x (operandUnsigned ops 1) }

/-- `X_STA d`, with `CODE_LEN = 16`. -/
def xSta : Entry :=
  { width := 1
    flags := 0x00
    exec := fun x pc ops => .store (16 + operandUnsigned ops 1) 1 x.a.toNat (.next x (pc + 2)) }

/-- `X_LDB d`. -/
def xLdb : Entry :=
  { width := 1
    flags := 0x00
    exec := fun x pc ops =>
      .load (16 + operandUnsigned ops 1) 1 fun bs => .next { x with b := bs.getD 0 0 } (pc + 2) }

/-- The table of Part 4. -/
def demoExt : Ext := fun op =>
  if op = 0x01 then some haltEntry else if op = 0x02 then some xJmp
  else if op = 0x03 then some xSta else if op = 0x04 then some xLdb else none

/-- The image of P5. -/
def p5 : List Byte := [0x04, 0, 0x80, 0x80, 0x03, 1, 0x02, 9, 0xFF, 0x01, 0, 0, 0, 0, 0, 0, 0x07]

/-- An entry that states one flag of its own, bit 1, and computes an `F` of all ones. -/
def xSetBit1 : Entry := { width := 0, flags := 0x02, exec := fun x pc _ => .next { x with f := 0xFF } (pc + 1) }

/-- An entry that states bit 1 and computes no other change of `F`. -/
def xOrBit1 : Entry := { width := 0, flags := 0x02, exec := fun x pc _ => .next { x with f := x.f ||| 0x02 } (pc + 1) }

/-- Extensions that use bit 1 of `F`. -/
def flagExt : Ext := fun op => if op = 0x05 then some xSetBit1 else none

/-- R150 and R157: of the computed ones the stated bit alone lands, and the carry is kept. -/
theorem test_entry_writes_its_stated_flag_only :
    (stepExt flagExt (at4 1 2 0 0 [0x05])).regs.f = 0x02 ∧
    (stepExt flagExt (at4 1 2 1 0 [0x05])).regs.f = 0x03 := by decide

/-- R31: no baseline instruction writes bits 7:1 (log 21), without a carry and with one. -/
theorem test_add_keeps_upper_flags :
    (stateOf (step (at4 1 2 0x03 0 [0x80]))).map (·.regs.f) = some 0x02 ∧
    (stateOf (step (at4 255 1 0xFE 0 [0x80]))).map (·.regs.f) = some 0xFF := by decide

/-- P5, steps 1, 4, 5 and 6. -/
theorem test_p5_steps :
    seen (stepExt demoExt (at16 0 0 0 p5)) = ⟨0, 7, 0, 2, .running, none⟩ ∧
    seen (stepExt demoExt (at16 14 7 4 p5)) = ⟨14, 7, 0, 6, .running, none⟩ ∧
    (stepExt demoExt (at16 14 7 4 p5)).mem.readByte 17 = 0x0E ∧
    seen (stepExt demoExt (at16 14 7 6 p5)) = ⟨14, 7, 0, 9, .running, none⟩ ∧
    seen (stepExt demoExt (at16 14 7 9 p5)) = ⟨14, 7, 0, 9, .halted, none⟩ := by decide

/-- The fault variants of P5, in the order the spec lists them. -/
theorem test_p5_faults :
    stepExt demoExt (at16 14 7 4 (p5.set 5 4)) = raise .outOfBoundsAccess (at16 14 7 4 (p5.set 5 4)) ∧
    stepExt demoExt (at16 14 7 6 (p5.set 7 0x10)) = raise .outOfBoundsAccess (at16 14 7 6 (p5.set 7 0x10)) ∧
    stepExt demoExt (at16 14 7 15 (p5.set 15 4)) = raise .outOfBoundsAccess (at16 14 7 15 (p5.set 15 4)) ∧
    stepExt demoExt (at16 14 7 15 (p5.set 15 0x80)) = raise .outOfBoundsAccess (at16 14 7 15 (p5.set 15 0x80)) ∧
    stepExt demoExt (at16 14 7 9 (p5.set 9 5)) = raise .illegalInstruction (at16 14 7 9 (p5.set 9 5)) := by decide

/-! ### Witnesses: states and operands that meet the hypotheses of the statements -/

theorem witness_DecodeOfEncode : Instr.addAB.wellFormed = true ∧ (Instr.illegal 0xFF).wellFormed = true := by decide

theorem witness_EncodeOfDecode :
    decode [0x80, 0x07] = .ok (.addAB, [0x07]) ∧ decode [0x7F] = .ok (.illegal 0x7F, []) := by decide

/-- The clauses, on the two sides of the end of `CodeRegion`. -/
theorem witness_AddABResult :
    (at4 200 100 1 2 []).pc + 1 < (at4 200 100 1 2 []).cfg.codeLen ∧
    reservedFlags (at4 200 100 1 2 []).regs.f = 0 ∧
    (at4 200 100 1 3 []).cfg.codeLen ≤ (at4 200 100 1 3 []).pc + 1 := by decide

theorem witness_AddABArithmeticLaw :
    (at4 200 100 1 2 [0x80]).pc + 1 < (at4 200 100 1 2 [0x80]).cfg.codeLen := by decide

/-- The old carry set and clear, other bits alike. -/
theorem witness_AddABIgnoresOldFlags :
    (at4 255 255 0x03 0 []).pc + 1 < (at4 255 255 0x03 0 []).cfg.codeLen ∧
    reservedFlags 0x02 = reservedFlags (at4 255 255 0x03 0 []).regs.f := by decide

theorem witness_AddABFrame :
    exec .addAB (at4 200 100 0 2 [0x80]) =
      .next { at4 44 100 1 3 [0x80] with es := .running } := rfl

/-- An instruction and a step that complete with a bit of 7:1 set, the second also for an extension. -/
theorem witness_NoBaselineInstructionWritesReservedFlags :
    exec .addAB (at4 200 100 0x02 2 []) = .next (at4 44 100 0x03 3 []) ∧
    step (at4 1 2 0x02 0 [0x80]) = .next (at4 3 2 0x02 1 [0x80]) ∧
    (at4 1 2 0x02 0 [0x80]).mem.readByte (at4 1 2 0x02 0 [0x80]).pc = 0x80 := ⟨rfl, rfl, rfl⟩

theorem witness_StepRunsTheDecodedInstruction :
    let s := at4 1 2 0 3 [0x80, 0x80, 0x80, 0xFF]
    s.runnable = true ∧ decode (s.mem.loadBytes s.pc (s.cfg.codeLen - s.pc)) = .ok (.illegal 0xFF, []) := by decide

/-- Both clauses, the second at the last code offset. -/
theorem witness_IllegalRaisesItsFault :
    (0x81 : Byte) ≠ 0x80 ∧
    let s := at4 1 2 0 3 [0x80]
    s.runnable = true ∧ s.pc < s.cfg.codeLen ∧ s.mem.readByte s.pc ≠ 0x80 := by decide

theorem witness_StepOutsideCodeFaults :
    (at4 1 2 0 4 [0x80]).runnable = true ∧ (at4 1 2 0 4 [0x80]).cfg.codeLen ≤ (at4 1 2 0 4 [0x80]).pc := by decide

theorem witness_StepBeforeInitSignals :
    State.es { at4 9 9 1 2 [] with es := .uninitialized } = .uninitialized := rfl

theorem witness_StepAfterTheEndIsNoOp :
    State.es { at4 9 9 1 2 [] with es := .halted } = .halted ∧
    State.es { at4 9 9 1 2 [] with es := .faulted, cause := some .illegalInstruction } = .faulted := ⟨rfl, rfl⟩

theorem witness_ReadyAndRunningStepAlike : State.reset.es = .ready := rfl

theorem witness_WhoWritesTheRegisters :
    hostOp .step (at4 10 5 0 0 [0x80]) = .next (at4 15 5 0 1 [0x80], .stepped .running .none) ∧
    hostOp .init (at4 10 5 0 2 [0x80]) = .next ({ at4 0 0 0 0 [0x80] with es := .ready }, .done) ∧
    hostOp (.writeMem 7 0) (at4 10 5 0 0 [0x80]) = .next (at4 10 5 0 0 [0x80], .done) := ⟨rfl, rfl, rfl⟩

theorem witness_FaultEntryIsPrecise :
    (at16 14 7 15 (p5.set 15 4)).es ≠ .faulted ∧
    (stepExt demoExt (at16 14 7 15 (p5.set 15 4))).es = .faulted := by decide

/-- The state is `Faulted` and the operation answers; the second operation is `init`. -/
theorem witness_FaultedIsLeftByInitAlone :
    let s : State := { at16 14 7 15 p5 with es := .faulted, cause := some .outOfBoundsAccess }
    hostOpExt demoExt .step s = .next (s, .stepped .faulted .outOfBoundsAccess) ∧
    hostOpExt demoExt .init s = .next (init s, .done) ∧ s.es = .faulted := ⟨rfl, rfl, rfl⟩

theorem witness_ConstructionBindsTheImage :
    cfg4.wf ∧ ([0x80, 0, 0, 0, 1, 2, 3, 4] : List Byte).length = cfg4.total := by decide

theorem witness_WrongImageBuildsNoCore : ([0x80] : List Byte).length ≠ cfg4.total := by decide

/-- Both clauses at the boundary. -/
theorem witness_MemReadContract : cfg8.total < 15 + 2 ∧ 14 + 2 ≤ cfg8.total := by decide

/-- Both clauses at the boundary, for `MemWriteContract`. -/
theorem witness_MemWriteContract :
    Memory.wf [(14, 1)] = true ∧ 0xBEEF < 2 ^ (8 * 2) ∧ cfg8.total < 15 + 2 ∧ 14 + 2 ≤ cfg8.total := by decide

theorem witness_WrittenValueReadsBack :
    Memory.wf [] = true ∧ 0xBEEF < 2 ^ (8 * 2) ∧ memWrite cfg8 [] 14 2 0xBEEF = .ok [(14, 0xEF), (15, 0xBE)] := by decide

theorem witness_BoundsAreExact : (-1 : Int) < 0 ∧ 16 ≤ cfg8.total := by decide

theorem witness_FetchByteStopsAtCodeLen : cfg8.codeLen ≤ 8 ∧ 7 < cfg8.codeLen := by decide

/-- Both clauses at the boundary. -/
theorem witness_OperandFetchContract :
    6 < cfg8.codeLen ∧ cfg8.codeLen < 6 + 1 + 2 ∧ 6 + 1 + 1 ≤ cfg8.codeLen := by decide

/-- Two writes in either order give images that read alike, and both are canonical. -/
theorem witness_CanonicalImagesThatReadAlikeAreEqual :
    let m := (Memory.writeByte [] 3 7).writeByte 1 5
    let m' := (Memory.writeByte [] 1 5).writeByte 3 7
    m.wf = true ∧ m'.wf = true ∧ ∀ a, m.readByte a = m'.readByte a := ⟨rfl, rfl, fun _ => rfl⟩

theorem witness_HostReadsChangeNothing :
    (∀ op ∈ [HostOp.readMem 7, .readReg .pc, .readStatus],
      op ≠ .init ∧ op ≠ .step ∧ ∀ addr b, op ≠ .writeMem addr b) ∧
    hostRun [.readMem 7, .readReg .pc, .readStatus] (at4 1 2 0 3 [0x80]) =
      .next (at4 1 2 0 3 [0x80], [.byte 0, .register 3, .status .running none]) ∧
    7 < (at4 1 2 0 3 [0x80]).cfg.total ∧ (at4 1 2 0 3 [0x80]).cfg.total ≤ 8 := by
  refine ⟨?_, rfl, by decide, by decide⟩
  intro op h
  simp only [List.mem_cons, List.not_mem_nil, or_false] at h
  rcases h with rfl | rfl | rfl <;> simp

theorem witness_HostWriteChangesOneByte :
    (at4 1 2 0 3 [0x80]).mem.wf = true ∧ 7 < (at4 1 2 0 3 [0x80]).cfg.total ∧
    (at4 1 2 0 3 [0x80]).cfg.total ≤ 8 := by decide

theorem witness_HostWriteIsSeenByTheNextStep :
    let s := at4 1 2 0 0 [0x80]
    s.mem.wf = true ∧ s.runnable = true ∧ s.pc < s.cfg.codeLen ∧ s.mem.readByte s.pc = 0x80 := by decide

theorem witness_ParametersNeverChange :
    hostOpExt demoExt (.writeMem 7 9) (at4 1 2 0 3 [0x80]) =
      .next ({ at4 1 2 0 3 [0x80] with mem := [(0, 0x80), (7, 9)] }, .done) := rfl

theorem witness_PlacedWordIsRun : (at4 1 2 0 2 [0x80]).Inv ∧ decodeTableWord 8 0x80 = some .addAB := by decide

theorem witness_StepKeepsTheInvariant :
    (at4 10 5 0 0 [0x80]).Inv ∧ step (at4 10 5 0 0 [0x80]) = .next (at4 15 5 0 1 [0x80]) := ⟨by decide, rfl⟩

theorem witness_EveryReachedStateMeetsTheInvariant :
    let image : List Byte := [0x80, 0, 0, 0, 0, 0, 0, 0]
    let s : State :=
      { regs := { a := 9, b := 8, f := 7 }, pc := 6, es := .uninitialized, cause := none, mem := [(0, 0x80)], cfg := cfg4 }
    construct cfg4 image { a := 9, b := 8, f := 7 } 6 = .next s ∧
    hostRunExt demoExt [.init, .step] s = .next (at4 0 0 0 1 [0x80], [.done, .stepped .running .none]) := ⟨rfl, rfl⟩

theorem witness_RegistersStayZeroAfterInit :
    hostRun [.writeMem 1 0x80, .step] (init (at4 9 9 1 3 [0x80])) =
      .next (at4 0 0 0 1 [0x80, 0x80], [.done, .stepped .running .none]) := rfl

/-- A run that does not begin in `Halted`, a step, and a second state that differs in `DataRegion` alone. -/
theorem witness_BaselineNeverHaltsOrTouchesData :
    (at4 10 5 0 0 [0x80]).es ≠ .halted ∧
    hostRun [.step] (at4 10 5 0 0 [0x80]) = .next (at4 15 5 0 1 [0x80], [.stepped .running .none]) ∧
    step (at4 10 5 0 0 [0x80]) = .next (at4 15 5 0 1 [0x80]) ∧
    SameButData (at4 10 5 0 0 [0x80]) (at4 10 5 0 0 [0x80, 0, 0, 0, 7]) := by
  refine ⟨by decide, rfl, rfl, rfl, ?_⟩
  intro a ha
  have : a < 4 := ha
  interval_cases a <;> rfl

theorem witness_StepKeepsReservedFlagsZero :
    (at4 250 10 1 0 [0x80]).flagsInRange ∧ step (at4 250 10 1 0 [0x80]) = .next (at4 4 10 1 1 [0x80]) :=
  ⟨by decide, rfl⟩

/-- A `Faulted` state, and a run of two steps that meets both sides of the equivalence. -/
theorem witness_FaultFreeRunsAreExactlyAddRuns :
    step { at4 1 2 0 3 [] with es := .faulted, cause := some .illegalInstruction } =
      .next { at4 1 2 0 3 [] with es := .faulted, cause := some .illegalInstruction } ∧
    let s := at4 200 100 0 1 [0, 0x80, 0x80]
    s.runnable = true ∧ s.pc < s.cfg.codeLen ∧ s.pc + 2 < s.cfg.codeLen ∧
      ∀ j, j < 2 → s.mem.readByte (s.pc + j) = 0x80 := ⟨rfl, by decide⟩

/-- The run of `AddRunComputesMultiple`, to the last offset it may reach. -/
theorem witness_AddRunComputesMultiple :
    let s := at4 200 100 0 0 [0x80, 0x80, 0x80]
    s.runnable = true ∧ (∀ j, j < 3 → s.mem.readByte (s.pc + j) = 0x80) ∧ s.pc + 3 < s.cfg.codeLen := by decide

theorem witness_EveryRunEndsInFaulted :
    (at4 200 100 0 3 [0x80]).runnable = true ∧ (at4 200 100 0 3 [0x80]).pc < (at4 200 100 0 3 [0x80]).cfg.codeLen := by
  decide

/-- Both clauses, under an extension that is not empty. -/
theorem witness_ExtensionKeepsTheBaseline :
    let s := at16 14 7 2 p5
    let s' := at16 14 7 8 p5
    (s.runnable = true ∧ s.pc < s.cfg.codeLen ∧ s.mem.readByte s.pc = 0x80) ∧
    (s'.runnable = true ∧ s'.pc < s'.cfg.codeLen ∧ s'.mem.readByte s'.pc ≠ 0x80 ∧
      demoExt (s'.mem.readByte s'.pc) = none) :=
  ⟨by decide, by decide, by decide, by decide, rfl⟩

/-- The premises the statements about entries share: the entry of a legal byte whose operands lie in `CodeRegion`. -/
def Fetches (s : State) (e : Entry) : Prop :=
  s.runnable = true ∧ s.pc + 1 + e.width ≤ s.cfg.codeLen ∧ s.mem.readByte s.pc ≠ 0x80 ∧
    demoExt (s.mem.readByte s.pc) = some e

/-- `X_JMP` at offset 14, whose operand is the last code byte, to the last code offset and to `CODE_LEN`; and at 15, where
the operand lies outside. -/
theorem witness_ControlTransferIsRangeChecked :
    let s := at16 1 2 14 (List.replicate 14 0 ++ [0x02, 15])
    let s' := at16 1 2 14 (List.replicate 14 0 ++ [0x02, 16])
    let s'' := at16 1 2 15 (List.replicate 15 0 ++ [0x02])
    (Fetches s xJmp ∧ s.pc < s.cfg.codeLen ∧
      xJmp.exec s.regs s.pc (s.mem.loadBytes (s.pc + 1) xJmp.width) = .next s.regs 15) ∧
    (Fetches s' xJmp ∧ s'.pc < s'.cfg.codeLen ∧
      xJmp.exec s'.regs s'.pc (s'.mem.loadBytes (s'.pc + 1) xJmp.width) = .next s'.regs 16) ∧
    (s''.runnable = true ∧ s''.pc < s''.cfg.codeLen ∧ s''.mem.readByte s''.pc ≠ 0x80 ∧
      demoExt (s''.mem.readByte s''.pc) = some xJmp ∧ s''.cfg.codeLen < s''.pc + 1 + xJmp.width) :=
  ⟨⟨⟨rfl, by decide, by decide, rfl⟩, by decide, rfl⟩, ⟨⟨rfl, by decide, by decide, rfl⟩, by decide, rfl⟩,
    rfl, by decide, by decide, rfl, by decide⟩

theorem witness_HaltEntryEntersHalted :
    let s := at16 1 2 15 (List.replicate 15 0 ++ [0x01])
    Fetches s haltEntry ∧
      haltEntry.exec s.regs s.pc (s.mem.loadBytes (s.pc + 1) haltEntry.width) = .halt s.regs 15 :=
  ⟨⟨rfl, by decide, by decide, rfl⟩, rfl⟩

/-- `X_STA` to the last byte of the image and to the byte after it. -/
theorem witness_StoreEntryIsBoundsChecked :
    let s := at16 14 7 4 (p5.set 5 3)
    let s' := at16 14 7 4 (p5.set 5 4)
    (Fetches s xSta ∧
      xSta.exec s.regs s.pc (s.mem.loadBytes (s.pc + 1) xSta.width) = .store 19 1 14 (.next s.regs 6) ∧
      (0 : Int) ≤ 6 ∧ (6 : Int) < s.cfg.codeLen ∧ (0 : Int) ≤ 19 ∧ (19 : Int) + 1 ≤ s.cfg.total) ∧
    (Fetches s' xSta ∧
      xSta.exec s'.regs s'.pc (s'.mem.loadBytes (s'.pc + 1) xSta.width) = .store 20 1 14 (.next s'.regs 6) ∧
      (0 : Int) ≤ 6 ∧ (6 : Int) < s'.cfg.codeLen ∧ (s'.cfg.total : Int) < 20 + 1) :=
  ⟨⟨⟨rfl, by decide, by decide, rfl⟩, rfl, by decide⟩, ⟨⟨rfl, by decide, by decide, rfl⟩, rfl, by decide⟩⟩

/-- `X_LDB` from the last byte of the image and from the byte after it. -/
theorem witness_LoadEntryIsBoundsChecked :
    let s := at16 14 7 0 (p5.set 1 3)
    let s' := at16 14 7 0 (p5.set 1 4)
    (Fetches s xLdb ∧
      xLdb.exec s.regs s.pc (s.mem.loadBytes (s.pc + 1) xLdb.width) =
        .load 19 1 (fun bs => .next { s.regs with b := bs.getD 0 0 } 2) ∧
      (0 : Int) ≤ 2 ∧ (2 : Int) < s.cfg.codeLen ∧ (0 : Int) ≤ 19 ∧ (19 : Int) + 1 ≤ s.cfg.total) ∧
    (Fetches s' xLdb ∧
      xLdb.exec s'.regs s'.pc (s'.mem.loadBytes (s'.pc + 1) xLdb.width) =
        .load 20 1 (fun bs => .next { s'.regs with b := bs.getD 0 0 } 2) ∧
      (0 : Int) ≤ 2 ∧ (2 : Int) < s'.cfg.codeLen ∧ (s'.cfg.total : Int) < 20 + 1) :=
  ⟨⟨⟨rfl, by decide, by decide, rfl⟩, rfl, by decide⟩, ⟨⟨rfl, by decide, by decide, rfl⟩, rfl, by decide⟩⟩

/-- A bit the entry does not state (the carry), and an illegal byte. -/
theorem witness_StepWritesOnlyTheStatedFlags :
    (∀ e, entryAt flagExt (at4 1 2 1 0 [0x05]) = some e → e.flags.getLsbD 0 = false) ∧
    (∀ e, entryAt flagExt (at4 1 2 1 0 [0x06]) = some e → e.flags.getLsbD 1 = false) := by
  constructor <;> intro e h
  · have : entryAt flagExt (at4 1 2 1 0 [0x05]) = some xSetBit1 := rfl
    rw [this] at h
    exact Option.some.inj h ▸ (by decide)
  · have : entryAt flagExt (at4 1 2 1 0 [0x06]) = none := rfl
    rw [this] at h
    cases h

theorem witness_LawfulEntryCommitsItsOwnResult : xOrBit1.definesItsFlags := by
  intro x pc operands
  show (x.f ||| 0x02) &&& ~~~0x02 = x.f &&& ~~~0x02
  generalize x.f = f
  revert f
  decide

/-- Bit 2 is stated by no entry of an extension that states bit 1, and a run under it. -/
theorem witness_UnstatedFlagsStayZero :
    1 ≤ 2 ∧ (∀ op e, flagExt op = some e → e.flags.getLsbD 2 = false) ∧
    hostRunExt flagExt [.step] (init (at4 1 2 1 3 [0x05])) =
      .next (at4 0 0 2 1 [0x05], [.stepped .running .none]) := by
  refine ⟨by decide, ?_, rfl⟩
  intro op e h
  unfold flagExt at h
  split at h
  · exact Option.some.inj h ▸ (by decide)
  · cases h

theorem witness_ReadAfterStoreInOneStepSeesTheOldByte : 15 < cfg8.total := by decide

theorem xLdb_sequential : xLdb.sequential := by
  intro x pc operands bs
  show (pc : Int) + 2 = pc + 1 + 1
  omega

theorem addABEntry_sequential : addABEntry.sequential := by
  intro x pc operands
  show (pc : Int) + 1 = pc + 1 + 0
  omega

/-- `ADD A,B` itself meets R150's condition on flags. -/
theorem addABEntry_definesItsFlags : addABEntry.definesItsFlags := by
  intro x pc operands
  show mergeFlags carryMask x.f _ &&& ~~~carryMask = x.f &&& ~~~carryMask
  apply BitVec.eq_of_getLsbD_eq
  intro i hi
  rw [BitVec.getLsbD_and, BitVec.getLsbD_and, getLsbD_mergeFlags]
  cases h : carryMask.getLsbD i <;> simp_all

/-- Two steps of P5, a two-byte instruction and a one-byte instruction, under an extension that also has a jump. -/
theorem witness_PcIsMonotonicUnderSequentialEntries :
    (∀ j, j < 2 → ∀ e, entryAt demoExt (runExt demoExt j (at16 0 0 0 p5)) = some e → e.sequential) ∧
    ∀ j, j ≤ 2 → (runExt demoExt j (at16 0 0 0 p5)).runnable = true := by
  constructor
  · intro j hj e h
    interval_cases j
    · have : entryAt demoExt (runExt demoExt 0 (at16 0 0 0 p5)) = some xLdb := rfl
      rw [this] at h
      exact Option.some.inj h ▸ xLdb_sequential
    · have : entryAt demoExt (runExt demoExt 1 (at16 0 0 0 p5)) = some addABEntry := rfl
      rw [this] at h
      exact Option.some.inj h ▸ addABEntry_sequential
  · intro j hj
    interval_cases j <;> rfl

end Sys2Proof.Tests
end

-- ==== Construction of the core: its three answers ====
section
/-! SUPPORT. One equation per answer of `construct` (R5, R6, R200), and the statements about scope settled from them. -/

namespace Sys2Proof.Machine

open Sys2Proof

/-- R5: parameters outside their ranges are refused whatever the image. -/
theorem construct_of_not_wf {c : Config} (hc : ¬ c.wf) (image : List Byte) (x : Regs) (pc : Nat) :
    construct c image x pc = .fault .invalidParameters :=
  if_neg hc

/-- R6: under valid parameters, a length other than `TOTAL` is reported as such. -/
theorem construct_of_length_ne {c : Config} {image : List Byte} (hc : c.wf) (hlen : image.length ≠ c.total)
    (x : Regs) (pc : Nat) : construct c image x pc = .fault .imageLengthMismatch :=
  (if_pos hc).trans (if_neg hlen)

/-- R200: the core that valid parameters and an image of `TOTAL` bytes build. -/
theorem construct_of_length_eq {c : Config} {image : List Byte} (hc : c.wf) (hlen : image.length = c.total)
    (x : Regs) (pc : Nat) :
    construct c image x pc =
      .next { regs := x, pc := pc, es := .uninitialized, cause := none,
              mem := Memory.storeBytes [] 0 image, cfg := c } :=
  (if_pos hc).trans (if_pos hlen)

/-- Settles O23. The parameters are checked before the image, so which fault answers depends on them; under either
answer no core exists. -/
theorem wrongImageBuildsNoCore : Obligations.WrongImageBuildsNoCore := by
  intro c image x pc hlen
  by_cases hc : c.wf
  · exact ⟨.imageLengthMismatch, construct_of_length_ne hc hlen x pc⟩
  · exact ⟨.invalidParameters, construct_of_not_wf hc image x pc⟩

end Sys2Proof.Machine
end

-- ==== The bits of F ====
section
/-! SUPPORT. The reserved bits `F[7:1]` (R31) bit by bit, and what `ADD A,B` does to the registers (R130). -/

namespace Sys2Proof.Machine

open Sys2Proof

theorem carryMask_getLsbD_of_pos {i : Nat} (hi : 1 ≤ i) : carryMask.getLsbD i = false := by
  simp [carryMask, show i ≠ 0 by omega]

/-- The reserved bits are those at the positions from 1 on. -/
theorem reservedFlags_eq_iff (f g : Byte) :
    reservedFlags f = reservedFlags g ↔ ∀ i, 1 ≤ i → f.getLsbD i = g.getLsbD i := by
  constructor
  · intro h i hi
    by_cases h8 : i < 8
    · have hbit := congrArg (fun v => v.getLsbD (i - 1)) h
      simpa [reservedFlags, BitVec.getLsbD_extractLsb', show i - 1 < 7 by omega,
        show 1 + (i - 1) = i by omega] using hbit
    · rw [BitVec.getLsbD_of_ge f i (by omega), BitVec.getLsbD_of_ge g i (by omega)]
  · intro h
    apply BitVec.eq_of_getLsbD_eq
    intro i hi
    simp [reservedFlags, BitVec.getLsbD_extractLsb', h (1 + i) (by omega)]

theorem reservedFlags_eq_zero_iff (f : Byte) : reservedFlags f = 0 ↔ f = 0x00 ∨ f = 0x01 := by
  revert f
  decide

/-- Of the old `F`, a merge under the carry mask reads the reserved bits alone. -/
theorem mergeFlags_carryMask_congr {f g : Byte} (h : reservedFlags f = reservedFlags g) (new : Byte) :
    mergeFlags carryMask f new = mergeFlags carryMask g new := by
  apply BitVec.eq_of_getLsbD_eq
  intro i _
  rw [getLsbD_mergeFlags, getLsbD_mergeFlags]
  cases i with
  | zero => simp [carryMask]
  | succ i => rw [(reservedFlags_eq_iff f g).1 h (i + 1) (by omega)]

/-- The registers `ADD A,B` hands on (R130, D4). -/
def addRegs (x : Regs) : Regs :=
  { a := zext 8 (sum9 x.a x.b), b := x.b, f := mergeFlags carryMask x.f (flagsOfSum (sum9 x.a x.b)) }

@[simp] theorem addRegs_b (x : Regs) : (addRegs x).b = x.b := rfl

@[simp] theorem reservedFlags_addRegs (x : Regs) : reservedFlags (addRegs x).f = reservedFlags x.f :=
  reservedFlags_mergeFlags ..

/-- `0 + 0` is 0 without a carry. -/
theorem addRegs_zero : addRegs { a := 0, b := 0, f := 0 } = { a := 0, b := 0, f := 0 } := by decide

theorem carryFlag_addRegs_with_f (x : Regs) (f : Byte) :
    carryFlag (addRegs { x with f := f }).f = carryFlag (addRegs x).f := by
  simp [addRegs]

theorem addRegs_with_f_of_reservedFlags_eq {x : Regs} {f : Byte} (h : reservedFlags f = reservedFlags x.f) :
    addRegs { x with f := f } = addRegs x := by
  simp [addRegs, mergeFlags_carryMask_congr h]

end Sys2Proof.Machine
end

-- ==== What one instruction and one step can do ====
section
/-! SUPPORT. `exec`, `step` and `stepExt` by cases: everything each can do, said once; and the statements about
`F` settled from them. -/

namespace Sys2Proof.Machine

open Sys2Proof

theorem exec_addAB (s : State) : exec .addAB s = .next (runEntry addABEntry [] s) := rfl

theorem exec_illegal (op : Byte) (s : State) : exec (.illegal op) s = .next (raise .illegalInstruction s) := rfl

/-- `ADD A,B` reaches no memory and hands `PC + 1` to the commit. -/
theorem runEntry_addABEntry (operands : List Byte) (s : State) :
    runEntry addABEntry operands s = commit (.next (addRegs s.regs) s.mem ((s.pc : Int) + 1)) s := by
  simp [runEntry, addABEntry, Transition.result, Result.limitFlags, limitRegs, addRegs]

theorem exec_addAB_of_lt {s : State} (h : s.pc + 1 < s.cfg.codeLen) :
    exec .addAB s = .next { s with regs := addRegs s.regs, pc := s.pc + 1, es := .running } := by
  have hcode : inCode s.cfg ((s.pc : Int) + 1) = true := (inCode_iff ..).2 (by omega)
  have hpc : ((s.pc : Int) + 1).toNat = s.pc + 1 := by omega
  simp [exec_addAB, runEntry_addABEntry, commit, hcode, hpc]

theorem exec_addAB_of_le {s : State} (h : s.cfg.codeLen ≤ s.pc + 1) :
    exec .addAB s = .next (raise .outOfBoundsAccess s) := by
  have hcode : inCode s.cfg ((s.pc : Int) + 1) = false := by
    rw [← Bool.not_eq_true, inCode_iff]
    omega
  simp [exec_addAB, runEntry_addABEntry, commit, hcode]

/-- Everything an instruction can do: `ADD A,B` completes, or the instruction faults. -/
theorem exec_cases (i : Instr) (s : State) :
    (i = .addAB ∧ s.pc + 1 < s.cfg.codeLen ∧
      exec i s = .next { s with regs := addRegs s.regs, pc := s.pc + 1, es := .running }) ∨
    ∃ x, exec i s = .next (raise x s) := by
  cases i with
  | addAB =>
    rcases Nat.lt_or_ge (s.pc + 1) s.cfg.codeLen with h | h
    · exact .inl ⟨rfl, h, exec_addAB_of_lt h⟩
    · exact .inr ⟨_, exec_addAB_of_le h⟩
  | illegal op => exact .inr ⟨_, exec_illegal op s⟩

/-- Everything a step of the hardware can do: nothing outside `Ready` and `Running`, and there complete an `ADD A,B` or
fault. -/
theorem step_cases {s t : State} (h : step s = .next t) :
    (s.runnable = false ∧ t = s) ∨
    (s.runnable = true ∧ s.pc + 1 < s.cfg.codeLen ∧
      t = { s with regs := addRegs s.regs, pc := s.pc + 1, es := .running }) ∨
    (s.runnable = true ∧ ∃ x, t = raise x s) := by
  cases hr : s.runnable with
  | false =>
    rw [step_of_not_runnable hr] at h
    cases h
    exact .inl ⟨rfl, rfl⟩
  | true =>
    rw [step_of_runnable hr] at h
    rcases Nat.lt_or_ge s.pc s.cfg.codeLen with hpc | hpc
    · rw [cycle_of_lt hpc] at h
      obtain ⟨-, hlt, he⟩ | ⟨x, he⟩ := exec_cases _ s
      · rw [he] at h
        cases h
        exact .inr (.inl ⟨rfl, hlt, rfl⟩)
      · rw [he] at h
        cases h
        exact .inr (.inr ⟨rfl, x, rfl⟩)
    · rw [cycle_of_le hpc] at h
      cases h
      exact .inr (.inr ⟨rfl, _, rfl⟩)

/-- Everything a step under an extension can do: nothing outside `Ready` and `Running`, and there fault before execute or
run the entry at `PC`. -/
theorem stepExt_cases (ext : Ext) (s : State) :
    (s.runnable = false ∧ stepExt ext s = s) ∨
    (s.runnable = true ∧ ∃ x, stepExt ext s = raise x s) ∨
    (s.runnable = true ∧ ∃ e operands, entryAt ext s = some e ∧ stepExt ext s = runEntry e operands s) := by
  cases hr : s.runnable with
  | false => exact .inl ⟨rfl, stepExt_of_not_runnable ext hr⟩
  | true =>
    rw [stepExt_of_runnable ext hr, cycleExt]
    obtain ⟨-, hb⟩ | ⟨-, hb⟩ := fetchByte_cases s.cfg s.mem s.pc
    · cases he : decodeExt ext (s.mem.readByte s.pc) with
      | none => exact .inr (.inl ⟨rfl, .illegalInstruction, by simp only [hb, he]⟩)
      | some e =>
        cases ho : fetchOperands s.cfg s.mem (s.pc + 1) e.width with
        | error x => exact .inr (.inl ⟨rfl, x, by simp only [hb, he, ho]⟩)
        | ok operands => exact .inr (.inr ⟨rfl, e, operands, he, by simp only [hb, he, ho]⟩)
    · exact .inr (.inl ⟨rfl, .outOfBoundsAccess, by simp only [hb]⟩)

theorem entryAt_of_add (ext : Ext) {s : State} (h : s.mem.readByte s.pc = 0x80) :
    entryAt ext s = some addABEntry := by
  rw [entryAt, h]
  rfl

/-- An entry changes no bit of `F` it does not state (R150, R157). -/
theorem runEntry_f_getLsbD_of_unstated {e : Entry} {i : Nat} (he : e.flags.getLsbD i = false) (operands : List Byte)
    (s : State) : (runEntry e operands s).regs.f.getLsbD i = s.regs.f.getLsbD i := by
  obtain ⟨x, m, pc, -, -, -, h⟩ | ⟨x, m, pc, -, h⟩ | h := runEntry_cases e operands s <;>
    simp [h, getLsbD_mergeFlags, he]

/-- A step changes no bit of `F` that the entry at `PC` does not state. -/
theorem stepExt_f_getLsbD_of_unstated (ext : Ext) {s : State} {i : Nat}
    (hi : ∀ e, entryAt ext s = some e → e.flags.getLsbD i = false) :
    (stepExt ext s).regs.f.getLsbD i = s.regs.f.getLsbD i := by
  obtain ⟨-, h⟩ | ⟨-, x, h⟩ | ⟨-, e, operands, he, h⟩ := stepExt_cases ext s
  · rw [h]
  · rw [h, raise_regs]
  · rw [h, runEntry_f_getLsbD_of_unstated (hi e he)]

theorem exec_reservedFlags {i : Instr} {s t : State} (h : exec i s = .next t) :
    reservedFlags t.regs.f = reservedFlags s.regs.f := by
  obtain ⟨-, -, he⟩ | ⟨x, he⟩ := exec_cases i s
  · rw [he] at h
    cases h
    exact reservedFlags_addRegs s.regs
  · rw [he] at h
    cases h
    rfl

theorem step_reservedFlags {s t : State} (h : step s = .next t) :
    reservedFlags t.regs.f = reservedFlags s.regs.f := by
  obtain ⟨-, rfl⟩ | ⟨-, -, rfl⟩ | ⟨-, x, rfl⟩ := step_cases h
  · rfl
  · exact reservedFlags_addRegs s.regs
  · rfl

/-- Settles O58. Under an extension the byte 0x80 runs the entry of `ADD A,B`, which states bit 0 alone. -/
theorem noBaselineInstructionWritesReservedFlags : Obligations.NoBaselineInstructionWritesReservedFlags := by
  refine ⟨fun _ _ _ => exec_reservedFlags, fun _ _ => step_reservedFlags, fun ext s h80 => ?_⟩
  rw [reservedFlags_eq_iff]
  intro i hi
  refine stepExt_f_getLsbD_of_unstated ext fun e he => ?_
  rw [entryAt_of_add ext h80] at he
  cases he
  exact carryMask_getLsbD_of_pos hi

/-- Settles O43. `F` is 0x00 or 0x01 exactly when its reserved bits are 0, and a step keeps those. -/
theorem stepKeepsReservedFlagsZero : Obligations.StepKeepsReservedFlagsZero := by
  intro s t hs h
  exact (reservedFlags_eq_zero_iff _).1 ((step_reservedFlags h).trans ((reservedFlags_eq_zero_iff _).2 hs))

/-- Settles O8. The two runs complete with `addRegs` of registers that differ in `F` alone. -/
theorem addABIgnoresOldFlags : Obligations.AddABIgnoresOldFlags := by
  intro s f h
  refine ⟨_, _, exec_addAB_of_lt h, exec_addAB_of_lt (s := { s with regs := { s.regs with f := f } }) h, ?_, ?_, ?_⟩
  · rfl
  · exact carryFlag_addRegs_with_f s.regs f
  · intro hf
    simp only [addRegs_with_f_of_reservedFlags_eq hf]

end Sys2Proof.Machine
end

-- ==== What the host's operations can do ====
section
/-! SUPPORT. One operation of the interface by cases, sequences of operations, and the induction over a sequence;
and the statements about the registers and the read ports settled from them. -/

namespace Sys2Proof.Machine

open Sys2Proof

/-- Everything an operation that answers can do to the state; the reads are the last case. -/
theorem hostCall_cases {stepFn : State → Host.Outcome State Fault Refusal} {op : HostOp} {s t : State} {r : Response}
    (h : hostCall stepFn op s = .next (t, r)) :
    (op = .init ∧ t = init s) ∨
    (op = .step ∧ stepFn s = .next t) ∨
    (∃ addr b, op = .writeMem addr b ∧ addr < s.cfg.total ∧ t = { s with mem := s.mem.writeByte addr b }) ∨
    t = s := by
  cases op with
  | init => cases h; exact .inl ⟨rfl, rfl⟩
  | step =>
    rw [hostCall] at h
    split at h
    · next hstep => cases h; exact .inr (.inl ⟨rfl, hstep⟩)
    · cases h
    · cases h
  | readReg r => cases h; exact .inr (.inr (.inr rfl))
  | readStatus => cases h; exact .inr (.inr (.inr rfl))
  | readMem addr =>
    rw [hostCall] at h
    split at h
    · cases h; exact .inr (.inr (.inr rfl))
    · cases h
  | writeMem addr b =>
    rw [hostCall] at h
    split at h
    · next hlt => cases h; exact .inr (.inr (.inl ⟨addr, b, rfl, hlt, rfl⟩))
    · cases h

theorem hostOp_readMem_of_lt {s : State} {addr : Nat} (h : addr < s.cfg.total) :
    hostOp (.readMem addr) s = .next (s, .byte (s.mem.readByte addr)) := if_pos h

theorem hostOp_readMem_of_le {s : State} {addr : Nat} (h : s.cfg.total ≤ addr) :
    hostOp (.readMem addr) s = .refused .hostAccessOutOfBounds := if_neg (Nat.not_lt.2 h)

section
variable {one : HostOp → State → Host.Outcome (State × Response) Fault Refusal}

/-- A sequence succeeds exactly when its first operation and the rest from there do. -/
theorem hostRunWith_cons_iff {op : HostOp} {ops : List HostOp} {s u : State} {rs : List Response} :
    hostRunWith one (op :: ops) s = .next (u, rs) ↔
      ∃ t r rs', one op s = .next (t, r) ∧ hostRunWith one ops t = .next (u, rs') ∧ rs = r :: rs' := by
  rw [hostRunWith]
  cases h1 : one op s with
  | fault e => simp
  | refused e => simp
  | next p =>
    obtain ⟨t, r⟩ := p
    cases h2 : hostRunWith one ops t with
    | fault e => simp [h2]
    | refused e => simp [h2]
    | next q =>
      obtain ⟨u', rs'⟩ := q
      simp [h2, eq_comm]

theorem hostRunWith_append {ops ops' : List HostOp} {s t u : State} {rs rs' : List Response}
    (h : hostRunWith one ops s = .next (t, rs)) (h' : hostRunWith one ops' t = .next (u, rs')) :
    hostRunWith one (ops ++ ops') s = .next (u, rs ++ rs') := by
  induction ops generalizing s rs with
  | nil => cases h; exact h'
  | cons op ops ih =>
    obtain ⟨s1, r, rs1, hop, hrest, rfl⟩ := hostRunWith_cons_iff.1 h
    exact hostRunWith_cons_iff.2 ⟨s1, r, rs1 ++ rs', hop, ih hrest, rfl⟩

/-- What each operation of a sequence keeps, the sequence keeps. -/
theorem hostRunWith_keeps {P : State → Prop} {ops : List HostOp} {s t : State} {rs : List Response}
    (hone : ∀ op ∈ ops, ∀ s t r, P s → one op s = .next (t, r) → P t)
    (h : hostRunWith one ops s = .next (t, rs)) (hs : P s) : P t := by
  induction ops generalizing s rs with
  | nil => cases h; exact hs
  | cons op ops ih =>
    obtain ⟨s1, r, rs1, hop, hrest, -⟩ := hostRunWith_cons_iff.1 h
    exact ih (fun op' h' => hone op' (List.mem_cons_of_mem _ h')) hrest (hone op List.mem_cons_self s s1 r hs hop)

end

/-- What `init`, the step and the host's write of a byte keep holds in every state the host reaches. -/
theorem hostRunWith_hostCall_keeps {P : State → Prop} {stepFn : State → Host.Outcome State Fault Refusal}
    (hinit : ∀ s, P s → P (init s)) (hstep : ∀ s t, P s → stepFn s = .next t → P t)
    (hwrite : ∀ s addr b, P s → addr < s.cfg.total → P { s with mem := s.mem.writeByte addr b })
    {ops : List HostOp} {s t : State} {rs : List Response}
    (h : hostRunWith (hostCall stepFn) ops s = .next (t, rs)) (hs : P s) : P t := by
  refine hostRunWith_keeps (fun op _ s t r hs hop => ?_) h hs
  obtain ⟨-, rfl⟩ | ⟨-, hst⟩ | ⟨addr, b, -, hlt, rfl⟩ | rfl := hostCall_cases hop
  · exact hinit s hs
  · exact hstep s t hs hst
  · exact hwrite s addr b hs hlt
  · exact hs

/-- The same for a core with an extension, whose step always answers. -/
theorem hostRunExt_keeps {P : State → Prop} {ext : Ext}
    (hinit : ∀ s, P s → P (init s)) (hstep : ∀ s, P s → P (stepExt ext s))
    (hwrite : ∀ s addr b, P s → addr < s.cfg.total → P { s with mem := s.mem.writeByte addr b })
    {ops : List HostOp} {s t : State} {rs : List Response} (h : hostRunExt ext ops s = .next (t, rs)) (hs : P s) :
    P t := by
  refine hostRunWith_hostCall_keeps (stepFn := fun s => .next (stepExt ext s)) hinit (fun s t hs hst => ?_) hwrite h hs
  cases hst
  exact hstep s hs

/-- Settles O18. Of the operations only `init` and a completing step write `PC` or the registers. -/
theorem whoWritesTheRegisters : Obligations.WhoWritesTheRegisters := by
  intro op s t r h
  obtain ⟨rfl, rfl⟩ | ⟨rfl, hstep⟩ | ⟨addr, b, -, -, rfl⟩ | rfl := hostCall_cases h
  · exact .inl ⟨rfl, rfl, rfl⟩
  · obtain ⟨-, rfl⟩ | ⟨-, -, rfl⟩ | ⟨-, x, rfl⟩ := step_cases hstep
    · exact .inr (.inr ⟨rfl, rfl⟩)
    · exact .inr (.inl ⟨rfl, rfl, rfl, rfl⟩)
    · exact .inr (.inr ⟨rfl, rfl⟩)
  · exact .inr (.inr ⟨rfl, rfl⟩)
  · exact .inr (.inr ⟨rfl, rfl⟩)

/-- Settles O32. The reads leave the state, so the second pass starts where the first did. -/
theorem hostReadsChangeNothing : Obligations.HostReadsChangeNothing := by
  refine ⟨fun ops s t rs hreads h => ?_, fun s addr => ⟨hostOp_readMem_of_lt, hostOp_readMem_of_le⟩⟩
  have hread : ∀ op ∈ ops, ∀ u v r, u = s → hostOp op u = .next (v, r) → v = s := by
    intro op hmem u v r hu hop
    obtain ⟨hni, hns, hnw⟩ := hreads op hmem
    obtain ⟨rfl, -⟩ | ⟨rfl, -⟩ | ⟨addr, b, rfl, -, -⟩ | rfl := hostCall_cases hop
    · exact absurd rfl hni
    · exact absurd rfl hns
    · exact absurd rfl (hnw addr b)
    · exact hu
  have hts : t = s := hostRunWith_keeps (P := (· = s)) hread h rfl
  subst hts
  exact ⟨rfl, hostRunWith_append h h⟩

/-- Settles O33. Each read answers the field itself with the state as it was. -/
theorem registerReadPort : Obligations.RegisterReadPort :=
  ⟨rfl, fun _ => ⟨rfl, rfl, rfl, rfl, rfl, rfl, rfl⟩⟩

/-- Settles O41. `ADD A,B` of two zeros gives zero and no carry; no other operation writes a register but `init`. -/
theorem registersStayZeroAfterInit : Obligations.RegistersStayZeroAfterInit := by
  intro s t ops rs h
  refine hostRunWith_hostCall_keeps (P := fun s => s.regs = { a := 0, b := 0, f := 0 })
    (fun s _ => init_regs s) (fun s t hs hstep => ?_) (fun _ _ _ hs _ => hs) h (init_regs s)
  obtain ⟨-, rfl⟩ | ⟨-, -, rfl⟩ | ⟨-, x, rfl⟩ := step_cases hstep
  · exact hs
  · exact (congrArg addRegs hs).trans addRegs_zero
  · exact hs

/-- A bit of `F[7:1]` that the extension leaves unstated is unstated by the entry at `PC`, `ADD A,B` included. -/
theorem entryAt_flags_unstated {ext : Ext} {i : Nat} (hi : 1 ≤ i)
    (hext : ∀ op e, ext op = some e → e.flags.getLsbD i = false) {s : State} {e : Entry}
    (he : entryAt ext s = some e) : e.flags.getLsbD i = false := by
  rw [entryAt, decodeExt] at he
  split at he
  · cases he
    exact carryMask_getLsbD_of_pos hi
  · exact hext _ e he

/-- Settles O57. `init` clears the bit, and no entry a step can run, `ADD A,B` among them, states it. -/
theorem unstatedFlagsStayZero : Obligations.UnstatedFlagsStayZero := by
  intro ext i hi hext s t ops rs h
  have hzero (u : State) : (init u).regs.f.getLsbD i = false := by simp
  have hkept (u : State) : (stepExt ext u).regs.f.getLsbD i = u.regs.f.getLsbD i :=
    stepExt_f_getLsbD_of_unstated ext fun _ => entryAt_flags_unstated hi hext
  exact hostRunExt_keeps (P := fun u => u.regs.f.getLsbD i = false)
    (fun u _ => hzero u) (fun u hu => (hkept u).trans hu) (fun _ _ _ hu _ => hu) h (hzero s)

end Sys2Proof.Machine
end

-- ==== The invariant of every core ====
section
/-! SUPPORT. `State.Inv` holds of a constructed core and is kept by every operation, under every extension; the two
statements about it settled from that. -/

namespace Sys2Proof.Machine

open Sys2Proof

section
variable {s : State} (h : s.Inv)
include h

theorem pc_lt_of_inv (hr : s.runnable = true) : s.pc < s.cfg.codeLen := by
  obtain ⟨-, -, -, hpc, -⟩ := h
  exact hpc (((runnable_iff s).1 hr).imp_right .inl)

theorem cause_eq_none_of_inv (hr : s.runnable = true) : s.cause = none := by
  obtain ⟨-, -, -, -, hcause⟩ := h
  obtain he | he := (runnable_iff s).1 hr <;> exact hcause.2 (by simp [he])

theorem inv_init : (init s).Inv := by
  obtain ⟨hc, hm, hf, -, -⟩ := h
  exact ⟨hc, hm, hf, fun _ => hc.1, by simp [State.causeAgrees]⟩

theorem inv_writeByte {addr : Nat} (ha : addr < s.cfg.total) (b : Byte) :
    State.Inv { s with mem := s.mem.writeByte addr b } := by
  obtain ⟨hc, hm, hf, hpc, hcause⟩ := h
  exact ⟨hc, Memory.wf_writeByte hm addr b, Memory.fits_writeByte b ha hf, hpc, hcause⟩

theorem inv_raise (hr : s.runnable = true) (x : FaultKind) : (raise x s).Inv := by
  have hlt := pc_lt_of_inv h hr
  obtain ⟨hc, hm, hf, -, -⟩ := h
  exact ⟨hc, hm, hf, fun _ => hlt, by simp [State.causeAgrees]⟩

theorem inv_running (hr : s.runnable = true) {m : Memory} (hm : m.wf = true) (hf : m.fits s.cfg.total = true)
    {pc : Nat} (hpc : pc < s.cfg.codeLen) (x : Regs) :
    State.Inv { s with regs := x, mem := m, pc := pc, es := .running } := by
  have hcause := cause_eq_none_of_inv h hr
  obtain ⟨hc, -, -, -, -⟩ := h
  exact ⟨hc, hm, hf, fun _ => hpc, by simp [State.causeAgrees, hcause]⟩

/-- In `Halted` any `PC` will do (R24). -/
theorem inv_halted (hr : s.runnable = true) {m : Memory} (hm : m.wf = true) (hf : m.fits s.cfg.total = true)
    (x : Regs) (pc : Nat) : State.Inv { s with regs := x, mem := m, pc := pc, es := .halted } := by
  have hcause := cause_eq_none_of_inv h hr
  obtain ⟨hc, -, -, -, -⟩ := h
  exact ⟨hc, hm, hf, by simp [State.pcInCode], by simp [State.causeAgrees, hcause]⟩

theorem inv_runEntry (hr : s.runnable = true) (e : Entry) (operands : List Byte) : (runEntry e operands s).Inv := by
  have ⟨_, hm, hf, _, _⟩ := h
  have hkeeps := result_keeps s.cfg s.mem (e.exec s.regs s.pc operands) hm hf
  obtain ⟨x, m, pc, hres, h0, hlt, hrun⟩ | ⟨x, m, pc, hres, hrun⟩ | hrun := runEntry_cases e operands s
  · rw [hres] at hkeeps
    rw [hrun]
    exact inv_running h hr hkeeps.1 hkeeps.2 (by omega) _
  · rw [hres] at hkeeps
    rw [hrun]
    exact inv_halted h hr hkeeps.1 hkeeps.2 _ pc
  · rw [hrun]
    exact inv_raise h hr _

theorem inv_stepExt (ext : Ext) : (stepExt ext s).Inv := by
  obtain ⟨-, hstep⟩ | ⟨hr, x, hstep⟩ | ⟨hr, e, operands, -, hstep⟩ := stepExt_cases ext s
  · rw [hstep]
    exact h
  · rw [hstep]
    exact inv_raise h hr x
  · rw [hstep]
    exact inv_runEntry h hr e operands

end

/-- A core that construction answers has the image in canonical form and no cause; its `PC` is not yet bound. -/
theorem inv_construct {c : Config} {image : List Byte} {x : Regs} {pc : Nat} {s : State}
    (h : construct c image x pc = .next s) : s.Inv := by
  by_cases hc : c.wf
  · by_cases hlen : image.length = c.total
    · rw [construct_of_length_eq hc hlen] at h
      cases h
      exact ⟨hc, Memory.wf_storeBytes image rfl 0, Memory.fits_storeBytes image rfl (by simp [hlen]),
        by simp [State.pcInCode], by simp [State.causeAgrees]⟩
    · rw [construct_of_length_ne hc hlen] at h
      cases h
  · rw [construct_of_not_wf hc] at h
    cases h

/-- Settles O39. A completing step has checked its `PC`; a faulting one keeps the `PC` it was fetched at. -/
theorem stepKeepsTheInvariant : Obligations.StepKeepsTheInvariant := by
  intro s t h hstep
  obtain ⟨-, rfl⟩ | ⟨hr, hlt, rfl⟩ | ⟨hr, x, rfl⟩ := step_cases hstep
  · exact h
  · have ⟨_, hm, hf, _, _⟩ := h
    exact inv_running h hr hm hf hlt _
  · exact inv_raise h hr x

/-- Settles O40, by induction over the operations from the constructed core. -/
theorem everyReachedStateMeetsTheInvariant : Obligations.EveryReachedStateMeetsTheInvariant := by
  intro ext c image x pc s t ops rs hs h
  exact hostRunExt_keeps (P := State.Inv) (fun _ hu => inv_init hu) (fun _ hu => inv_stepExt hu ext)
    (fun _ _ b hu ha => inv_writeByte hu ha b) h (inv_construct hs)

end Sys2Proof.Machine
end

-- ==== Memory accesses: bounds, bytes and values ====
section
/-! SUPPORT. `MemRead` and `MemWrite` on each side of the bounds check, the bytes and the value they carry
(20_memory.md), and the statements about accesses settled from them. -/

namespace Sys2Proof.Machine

open Sys2Proof

/-- R55: the bounds check fails below 0 and past `TOTAL`, and nowhere else. -/
theorem inBounds_eq_false_iff (c : Config) (addr : Int) (n : Nat) :
    inBounds c addr n = false ↔ addr < 0 ∨ (c.total : Int) < addr + n := by
  rw [← Bool.not_eq_true, inBounds_iff]
  omega

section
variable {c : Config} {addr : Int} {n : Nat}

theorem memRead_of_inBounds (m : Memory) (h : inBounds c addr n = true) :
    memRead c m addr n = .ok (m.loadBytes addr.toNat n) := if_pos h

theorem memRead_of_not_inBounds (m : Memory) (h : inBounds c addr n = false) :
    memRead c m addr n = .error .outOfBoundsAccess := if_neg (Bool.not_eq_true _ ▸ h)

theorem memWrite_of_inBounds (m : Memory) (v : Nat) (h : inBounds c addr n = true) :
    memWrite c m addr n v = .ok (m.storeBytes addr.toNat (leBytes n v)) := if_pos h

theorem memWrite_of_not_inBounds (m : Memory) (v : Nat) (h : inBounds c addr n = false) :
    memWrite c m addr n v = .error .outOfBoundsAccess := if_neg (Bool.not_eq_true _ ▸ h)

theorem memReadValue_of_inBounds (m : Memory) (h : inBounds c addr n = true) :
    memReadValue c m addr n = .ok (leValue (m.loadBytes addr.toNat n)) := by
  rw [memReadValue, memRead_of_inBounds m h]

theorem memReadValue_of_not_inBounds (m : Memory) (h : inBounds c addr n = false) :
    memReadValue c m addr n = .error .outOfBoundsAccess := by
  rw [memReadValue, memRead_of_not_inBounds m h]

/-- A write that answers an image was in bounds, and the image is the one with the bytes of the value stored. -/
theorem memWrite_eq_ok_iff {m m' : Memory} {v : Nat} :
    memWrite c m addr n v = .ok m' ↔ inBounds c addr n = true ∧ m' = m.storeBytes addr.toNat (leBytes n v) := by
  obtain ⟨hb, hw⟩ | ⟨hb, hw⟩ := memWrite_cases c m addr n v <;> simp [hb, hw, eq_comm]

end

/-- The bytes of a load by their offsets. -/
theorem loadBytes_eq_map_range (m : Memory) (a n : Nat) :
    m.loadBytes a n = (List.range n).map fun i => m.readByte (a + i) := by
  refine List.ext_getElem (by simp) fun i hi _ => ?_
  simp [Memory.getElem_loadBytes m a n i hi]

/-- R57: byte `i` of a little-endian number has weight `256 ^ i`. -/
theorem leValue_map_range (f : Nat → Byte) (n : Nat) :
    leValue ((List.range n).map f) = ((List.range n).map fun i => (f i).toNat * 256 ^ i).sum := by
  induction n generalizing f with
  | zero => rfl
  | succ n ih =>
    simp only [List.range_succ_eq_map, List.map_cons, List.map_map, leValue, ih, List.sum_cons, Function.comp_def]
    rw [← List.sum_map_mul_left]
    simp [Nat.pow_succ, Nat.mul_comm, Nat.mul_left_comm]

/-- R54: byte `i` of the value written is its bits `8i + 7` to `8i`. -/
theorem getD_leBytes (n v i : Nat) (hi : i < n) (d : Byte) :
    (leBytes n v).getD i d = BitVec.ofNat 8 (v / 2 ^ (8 * i)) := by
  induction n generalizing v i with
  | zero => omega
  | succ n ih =>
    cases i with
    | zero => simp [leBytes]
    | succ i =>
      rw [leBytes, List.getD_cons_succ, ih (v / 256) i (by omega), Nat.div_div_eq_div_mul,
        show 256 * 2 ^ (8 * i) = 2 ^ (8 * (i + 1)) by rw [Nat.mul_succ, Nat.pow_add, Nat.mul_comm]]

/-- The bytes stored are the bytes loaded again from the same place (R65). -/
theorem loadBytes_storeBytes {m : Memory} (hm : m.wf = true) (a : Nat) (bs : List Byte) :
    (m.storeBytes a bs).loadBytes a bs.length = bs := by
  refine List.ext_getElem (by simp) fun i hi hi' => ?_
  rw [Memory.getElem_loadBytes, Memory.readByte_storeBytes bs hm, if_pos (by omega), Nat.add_sub_cancel_left,
    List.getD_eq_getElem _ _ hi']

theorem storeBytes_leBytes_one (m : Memory) (a v : Nat) :
    m.storeBytes a (leBytes 1 v) = m.writeByte a (BitVec.ofNat 8 v) := rfl

/-- Settles O25. The bytes of the load are named by their offsets, which gives the value as a weighted sum. -/
theorem memReadContract : Obligations.MemReadContract := by
  intro c m addr n
  refine ⟨fun h => ?_, fun h => ?_⟩
  · have hb : inBounds c addr n = false := (inBounds_eq_false_iff ..).2 (by omega)
    exact ⟨memRead_of_not_inBounds m hb, memReadValue_of_not_inBounds m hb⟩
  · have hb : inBounds c addr n = true := (inBounds_iff ..).2 (by omega)
    rw [memRead_of_inBounds m hb, memReadValue_of_inBounds m hb, Int.toNat_natCast, loadBytes_eq_map_range,
      leValue_map_range]
    exact ⟨rfl, rfl⟩

/-- Settles O26. Inside the stored range the byte is one of the value's, outside it is the old one. -/
theorem memWriteContract : Obligations.MemWriteContract := by
  intro c m addr n v hm _
  refine ⟨fun h => memWrite_of_not_inBounds m v ((inBounds_eq_false_iff ..).2 (by omega)), fun h => ?_⟩
  refine ⟨_, memWrite_of_inBounds m v ((inBounds_iff ..).2 (by omega)), fun i hi => ?_, fun a ha => ?_⟩
  · rw [Int.toNat_natCast, Memory.readByte_storeBytes _ hm, length_leBytes, if_pos (by omega), Nat.add_sub_cancel_left,
      getD_leBytes n v i hi, BitVec.toNat_ofNat]
  · rw [Int.toNat_natCast, Memory.readByte_storeBytes _ hm, length_leBytes, if_neg (by omega)]

/-- Settles O27. The bytes come back as stored, and they stand for the value because it fits its width. -/
theorem writtenValueReadsBack : Obligations.WrittenValueReadsBack := by
  intro c m m' addr n v hm hv hw
  obtain ⟨hb, rfl⟩ := memWrite_eq_ok_iff.1 hw
  have hload := loadBytes_storeBytes hm addr.toNat (leBytes n v)
  rw [length_leBytes] at hload
  have hv' : v < 256 ^ n := by rwa [Nat.pow_mul] at hv
  rw [memReadValue_of_inBounds _ hb, hload, leValue_leBytes, Nat.mod_eq_of_lt hv']

/-- Settles O28. Both ends of the range come from the check on exact integers (R55). -/
theorem boundsAreExact : Obligations.BoundsAreExact := by
  refine ⟨fun c m addr n v h => ?_, fun c m n h => ⟨?_, ?_⟩⟩
  · have hb : inBounds c addr n = false := (inBounds_eq_false_iff ..).2 (.inl h)
    exact ⟨memRead_of_not_inBounds m hb, memWrite_of_not_inBounds m v hb⟩
  · exact ⟨_, memRead_of_inBounds m ((inBounds_iff ..).2 (by omega))⟩
  · exact memRead_of_not_inBounds m ((inBounds_eq_false_iff ..).2 (.inr (by omega)))

/-- Settles O29. The instruction side is limited by `CODE_LEN` alone, not by `TOTAL` (R61). -/
theorem fetchByteStopsAtCodeLen : Obligations.FetchByteStopsAtCodeLen :=
  fun _ _ _ => ⟨fun h => if_neg (Nat.not_lt.2 h), fun h => if_pos h⟩

/-- Settles O53. The store goes to the staged image, while the load reads the one the step found. -/
theorem readAfterStoreInOneStepSeesTheOldByte : Obligations.ReadAfterStoreInOneStepSeesTheOldByte := by
  intro c m x addr v pc h
  have hb : inBounds c addr 1 = true := (inBounds_iff ..).2 (by omega)
  have hload : m.loadBytes addr 1 = [m.readByte addr] := rfl
  simp [Transition.result, memWrite_of_inBounds m v hb, memRead_of_inBounds m hb, storeBytes_leBytes_one, hload]

end Sys2Proof.Machine
end

-- ==== Memory between steps: fetch and the host's write ====
section
/-! SUPPORT. What a runnable step fetches at `PC`, the host's write of a byte, and the parameters; and the statements
about the image between steps settled from them. -/

namespace Sys2Proof.Machine

open Sys2Proof

section
variable {s : State} (hr : s.runnable = true)
include hr

theorem step_of_le (h : s.cfg.codeLen ≤ s.pc) : step s = .next (raise .outOfBoundsAccess s) :=
  (step_of_runnable hr).trans (cycle_of_le h)

theorem step_of_readByte_add (h : s.pc < s.cfg.codeLen) (hb : s.mem.readByte s.pc = 0x80) :
    step s = exec .addAB s := by
  rw [step_of_runnable hr, cycle_of_lt h, hb, decodeOpcode_add]
  rfl

theorem step_of_readByte_ne (h : s.pc < s.cfg.codeLen) (hb : s.mem.readByte s.pc ≠ 0x80) :
    step s = exec (.illegal (s.mem.readByte s.pc)) s := by
  rw [step_of_runnable hr, cycle_of_lt h, decodeOpcode_of_ne hb]
  rfl

end

theorem hostOp_writeMem_of_lt {s : State} {addr : Nat} (b : Byte) (h : addr < s.cfg.total) :
    hostOp (.writeMem addr b) s = .next ({ s with mem := s.mem.writeByte addr b }, .done) := if_pos h

theorem hostOp_writeMem_of_le {s : State} {addr : Nat} (b : Byte) (h : s.cfg.total ≤ addr) :
    hostOp (.writeMem addr b) s = .refused .hostAccessOutOfBounds := if_neg (Nat.not_lt.2 h)

@[simp] theorem runEntry_cfg (e : Entry) (operands : List Byte) (s : State) :
    (runEntry e operands s).cfg = s.cfg := by
  obtain ⟨x, m, pc, -, -, -, h⟩ | ⟨x, m, pc, -, h⟩ | h := runEntry_cases e operands s
  · rw [h]
  · rw [h]
  · rw [h, raise_cfg]

@[simp] theorem stepExt_cfg (ext : Ext) (s : State) : (stepExt ext s).cfg = s.cfg := by
  obtain ⟨-, h⟩ | ⟨-, x, h⟩ | ⟨-, e, operands, -, h⟩ := stepExt_cases ext s
  · rw [h]
  · rw [h, raise_cfg]
  · rw [h, runEntry_cfg]

/-- Settles O12. The opcode fetch faults before anything is decoded. -/
theorem stepOutsideCodeFaults : Obligations.StepOutsideCodeFaults :=
  fun _ hr h => step_of_le hr h

/-- Settles O34. The write looks at no part of the state but the size of the image, so `ES` does not matter (R71). -/
theorem hostWriteChangesOneByte : Obligations.HostWriteChangesOneByte := by
  intro s addr b hm
  refine ⟨fun h => ⟨_, hostOp_writeMem_of_lt b h, fun a => ?_⟩, hostOp_writeMem_of_le b⟩
  rw [Memory.readByte_writeByte hm]
  exact if_congr eq_comm rfl rfl

/-- Settles O35. The state after the write is as runnable as before and holds `b` at its `PC`. -/
theorem hostWriteIsSeenByTheNextStep : Obligations.HostWriteIsSeenByTheNextStep := by
  intro s b hm hr hpc
  have htotal : s.pc < s.cfg.total := Nat.lt_add_right s.cfg.dataLen hpc
  have hread : (s.mem.writeByte s.pc b).readByte s.pc = b := by rw [Memory.readByte_writeByte hm, if_pos rfl]
  refine ⟨{ s with mem := s.mem.writeByte s.pc b }, hostOp_writeMem_of_lt b htotal, fun hb => ?_, fun hb => ?_⟩
  · exact step_of_readByte_add hr hpc (hread.trans hb)
  · have hstep := step_of_readByte_ne (s := { s with mem := s.mem.writeByte s.pc b }) hr hpc (hread.symm ▸ hb)
    simpa only [hread] using hstep

/-- Settles O36. Only a step could do more than write named fields, and each of its ways keeps the parameters. -/
theorem parametersNeverChange : Obligations.ParametersNeverChange := by
  intro ext op s t r h
  obtain ⟨-, rfl⟩ | ⟨-, hstep⟩ | ⟨addr, b, -, -, rfl⟩ | rfl := hostCall_cases h
  · exact init_cfg s
  · cases hstep
    exact stepExt_cfg ext s
  · rfl
  · rfl

end Sys2Proof.Machine
end

-- ==== The decoder and the encoder, one opcode byte at a time ====
section
/-! SUPPORT. The instruction an opcode byte decodes to, its encoding, and the rows of the table (R80 to R88); and the
statements about the encoding settled from them. -/

namespace Sys2Proof

theorem decode_add (rest : List Byte) : decode (0x80 :: rest) = .ok (.addAB, rest) := by
  rw [decode_cons, decodeOpcode_add]
  rfl

theorem decode_of_ne {op : Byte} (h : op ≠ 0x80) (rest : List Byte) :
    decode (op :: rest) = .ok (.illegal op, rest) := by
  rw [decode_cons, decodeOpcode_of_ne h]
  rfl

theorem wellFormed_illegal_iff (op : Byte) : (Instr.illegal op).wellFormed = true ↔ op ≠ 0x80 := bne_iff_ne

/-- Everything decoding can give: an opcode byte is taken off, and it is the whole encoding of the instruction. -/
theorem decode_eq_ok {bytes rest : List Byte} {i : Instr} (h : decode bytes = .ok (i, rest)) :
    ∃ op, bytes = op :: rest ∧ encode i = [op] ∧ i.wellFormed = true := by
  cases bytes with
  | nil => cases h
  | cons op bytes =>
    by_cases h80 : op = 0x80
    · subst h80
      rw [decode_add] at h
      cases h
      exact ⟨0x80, rfl, rfl, rfl⟩
    · rw [decode_of_ne h80] at h
      cases h
      exact ⟨op, rfl, rfl, (wellFormed_illegal_iff op).2 h80⟩

/-- The table word of an opcode is the opcode byte alone (R88). -/
theorem wordBytes_toNat (op : Byte) : wordBytes 8 op.toNat = [op] := by
  have hmod : op.toNat % 256 = op.toNat := Nat.mod_eq_of_lt op.isLt
  simp [wordBytes, hmod]

theorem decodeTableWord_toNat (op : Byte) :
    decodeTableWord 8 op.toNat = if op = 0x80 then some .addAB else some (.illegal op) := by
  rw [decodeTableWord, wordBytes_toNat]
  by_cases h : op = 0x80
  · rw [if_pos h, h, decode_add]
  · rw [if_neg h, decode_of_ne h]

/-- A row covers an interval of opcode values. -/
theorem covers_iff (r : TableRow) (op : Byte) :
    r.covers op = true ↔ r.first.toNat ≤ op.toNat ∧ op.toNat ≤ r.last.toNat := by
  simp [TableRow.covers, BitVec.le_def]

/-- Settles O1. A well-formed instruction is `ADD A,B`, encoded as 0x80, or an opcode byte other than 0x80. -/
theorem decodeOfEncode : Obligations.DecodeOfEncode := by
  intro i rest h
  cases i with
  | addAB => exact decode_add rest
  | illegal op => exact decode_of_ne ((wellFormed_illegal_iff op).1 h) rest

/-- Settles O2. Decoding takes off one opcode byte, and that byte is the whole encoding. -/
theorem encodeOfDecode : Obligations.EncodeOfDecode := by
  intro bytes i rest h
  obtain ⟨op, hbytes, hencode, hwf⟩ := decode_eq_ok h
  exact ⟨hwf, by rw [hbytes, hencode, List.singleton_append]⟩

/-- Settles O3. The table word of an opcode is its one byte, and no baseline row has operand bytes. -/
theorem baselineTableComplete : Obligations.BaselineTableComplete :=
  fun op => ⟨decodeTableWord_toNat op, decodeOpcode_width op⟩

/-- Settles O4. The five words other than 0b10000000 are opcode bytes other than 0x80. -/
theorem decodeWordsFromTheSpec : Obligations.DecodeWordsFromTheSpec :=
  ⟨decode_add [], decode_of_ne (by decide) [], decode_of_ne (by decide) [], decode_of_ne (by decide) [],
    decode_of_ne (by decide) [], decode_of_ne (by decide) [0x80]⟩

/-- Settles O5. An opcode value lies below 0x80, at it or above it, and one row stands for each of the three. -/
theorem tableRowsPartitionOpcodes : Obligations.TableRowsPartitionOpcodes := by
  intro op
  have hlast : op.toNat ≤ 255 := Nat.le_of_lt_succ op.isLt
  obtain hlt | heq | hgt := Nat.lt_trichotomy op.toNat 0x80
  · simp [baselineTable, covers_iff, show op.toNat ≤ 127 by omega, show ¬ 128 ≤ op.toNat by omega,
      show ¬ 129 ≤ op.toNat by omega]
  · simp [baselineTable, covers_iff, heq]
  · simp [baselineTable, covers_iff, show ¬ op.toNat ≤ 127 by omega, show ¬ op.toNat ≤ 128 by omega,
      show 129 ≤ op.toNat by omega, hlast]

end Sys2Proof
end

-- ==== The core under an extension of the decode table ====
section
/-! SUPPORT. The entry at `PC` and the step under an extension, by what the byte at `PC` is (R90, R106 to R108); and the
statements that compare the hardware with it settled from them. -/

namespace Sys2Proof.Machine

open Sys2Proof

/-- Off 0x80 the entry at `PC` is the extension's own (R90). -/
theorem entryAt_of_ne (ext : Ext) {s : State} (h : s.mem.readByte s.pc ≠ 0x80) :
    entryAt ext s = ext (s.mem.readByte s.pc) := by
  rw [entryAt, decodeExt, decodeOpcode_of_ne h]

section
variable (ext : Ext) {s : State} (hr : s.runnable = true)
include hr

theorem stepExt_of_le (h : s.cfg.codeLen ≤ s.pc) : stepExt ext s = raise .outOfBoundsAccess s := by
  rw [stepExt_of_runnable ext hr, cycleExt, fetchByte, if_neg (Nat.not_lt.2 h)]

theorem stepExt_of_entryAt_none (h : s.pc < s.cfg.codeLen) (he : entryAt ext s = none) :
    stepExt ext s = raise .illegalInstruction s := by
  rw [entryAt] at he
  rw [stepExt_of_runnable ext hr, cycleExt, fetchByte, if_pos h]
  simp only [he]

/-- An entry without operand bytes runs as soon as it is decoded. -/
theorem stepExt_of_entryAt_some {e : Entry} (h : s.pc < s.cfg.codeLen) (he : entryAt ext s = some e)
    (hw : e.width = 0) : stepExt ext s = runEntry e [] s := by
  rw [entryAt] at he
  rw [stepExt_of_runnable ext hr, cycleExt, fetchByte, if_pos h]
  simp only [he, hw, fetchOperands]

theorem stepExt_of_readByte_add (h : s.pc < s.cfg.codeLen) (hb : s.mem.readByte s.pc = 0x80) :
    exec .addAB s = .next (stepExt ext s) := by
  rw [stepExt_of_entryAt_some ext hr h (entryAt_of_add ext hb) rfl, exec_addAB]

theorem stepExt_of_readByte_ne (h : s.pc < s.cfg.codeLen) (hb : s.mem.readByte s.pc ≠ 0x80)
    (hext : ext (s.mem.readByte s.pc) = none) : stepExt ext s = raise .illegalInstruction s :=
  stepExt_of_entryAt_none ext hr h ((entryAt_of_ne ext hb).trans hext)

end

/-- Settles O47. The cases of a step: not run, fetched outside `CodeRegion`, at 0x80, at an illegal byte. -/
theorem stepIsTheEmptyExtension : Obligations.StepIsTheEmptyExtension := by
  intro s
  cases hr : s.runnable with
  | false => rw [step_of_not_runnable hr, stepExt_of_not_runnable Ext.empty hr]
  | true =>
    rcases Nat.lt_or_ge s.pc s.cfg.codeLen with hpc | hpc
    · by_cases hb : s.mem.readByte s.pc = 0x80
      · rw [step_of_readByte_add hr hpc hb, stepExt_of_readByte_add Ext.empty hr hpc hb]
      · rw [step_of_readByte_ne hr hpc hb, exec_illegal, stepExt_of_readByte_ne Ext.empty hr hpc hb rfl]
    · rw [step_of_le hr hpc, stepExt_of_le Ext.empty hr hpc]

/-- Settles O48. The entry at `PC` is `ADD A,B` at 0x80, and off 0x80 what the extension holds. -/
theorem extensionKeepsTheBaseline : Obligations.ExtensionKeepsTheBaseline :=
  fun ext _ hr hpc => ⟨stepExt_of_readByte_add ext hr hpc, stepExt_of_readByte_ne ext hr hpc⟩

end Sys2Proof.Machine
end

-- ==== The fetch of an instruction and of its operand bytes ====
section
/-! SUPPORT. The operand fetch on each side of the end of `CodeRegion` (R109), and the step of a decoded instruction
(R106, R107); and the statements about the fetch settled from them. -/

namespace Sys2Proof.Machine

open Sys2Proof

theorem fetchOperands_of_le {c : Config} (m : Memory) {cursor w : Nat} (h : cursor + w ≤ c.codeLen) :
    fetchOperands c m cursor w = .ok (m.loadBytes cursor w) := by
  induction w generalizing cursor with
  | zero => rfl
  | succ w ih =>
    have hbyte : fetchByte c m cursor = .ok (m.readByte cursor) := if_pos (by omega)
    rw [fetchOperands, hbyte, ih (by omega)]
    rfl

/-- The cursor may start at `CODE_LEN`, where even the first of the bytes is missing. -/
theorem fetchOperands_of_lt {c : Config} (m : Memory) {cursor w : Nat} (hcursor : cursor ≤ c.codeLen)
    (h : c.codeLen < cursor + w) : fetchOperands c m cursor w = .error .outOfBoundsAccess := by
  induction w generalizing cursor with
  | zero => omega
  | succ w ih =>
    obtain ⟨hlt, hbyte⟩ | ⟨-, hbyte⟩ := fetchByte_cases c m cursor
    · rw [fetchOperands, hbyte, ih hlt (by omega)]
    · rw [fetchOperands, hbyte]

/-- Settles O30. The operand bytes of the fetch are those of a load from the byte after the opcode. -/
theorem operandFetchContract : Obligations.OperandFetchContract := by
  intro c m pc w hpc
  refine ⟨fetchOperands_of_lt m hpc, fun h => ?_⟩
  rw [fetchOperands_of_le m h, loadBytes_eq_map_range]

/-- Settles O11. Bytes that decode begin with the byte at `PC`, which then lies in `CodeRegion`. -/
theorem stepRunsTheDecodedInstruction : Obligations.StepRunsTheDecodedInstruction := by
  intro s i rest hr h
  cases hn : s.cfg.codeLen - s.pc with
  | zero =>
    rw [hn] at h
    cases h
  | succ n =>
    have hpc : s.pc < s.cfg.codeLen := by omega
    rw [hn, Memory.loadBytes, decode_cons] at h
    cases h
    rw [step_of_runnable hr, cycle_of_lt hpc]

end Sys2Proof.Machine
end

-- ==== What step and init answer ====
section
/-! SUPPORT. The returned pair by the state left (R104, R105, R114), and the execution states a step can end in (R115);
and the statements about the answers of `step` and `init` settled from them. -/

namespace Sys2Proof.Machine

open Sys2Proof

@[simp] theorem returned_fst (s : State) : (returned s).1 = s.es := by
  cases h : s.es <;> simp [returned, h]

section
variable {s : State}

theorem returned_of_uninitialized (h : s.es = .uninitialized) :
    returned s = (.uninitialized, .preconditionViolation) := by
  simp [returned, h]

theorem returned_of_halted (h : s.es = .halted) : returned s = (.halted, .none) := by
  simp [returned, h]

theorem returned_of_running (h : s.es = .running) : returned s = (.running, .none) := by
  simp [returned, h]

theorem returned_of_faulted (h : s.es = .faulted) : returned s = (.faulted, causeSignal s.cause) := by
  simp [returned, h]

end

/-- A cause is never signalled as a missing `init`. -/
theorem causeSignal_ne_preconditionViolation (cause : Option FaultKind) :
    causeSignal cause ≠ .preconditionViolation := by
  rcases cause with _ | _ | _ <;> simp [causeSignal]

theorem returned_snd_eq_preconditionViolation_iff (s : State) :
    (returned s).2 = .preconditionViolation ↔ s.es = .uninitialized := by
  cases h : s.es <;> simp [returned, h, causeSignal_ne_preconditionViolation]

/-- `step` where the cycle does not run leaves the state and returns its own pair (R104, R105). -/
theorem hostOp_step_of_not_runnable {s : State} (h : s.runnable = false) :
    hostOp .step s = .next (s, .stepped (returned s).1 (returned s).2) := by
  rw [hostOp, hostCall, step_of_not_runnable h]

theorem hostOpExt_step (ext : Ext) (s : State) :
    hostOpExt ext .step s =
      .next (stepExt ext s, .stepped (stepExt ext s).es (returned (stepExt ext s)).2) := by
  simp only [hostOpExt, hostCall, returned_fst]

theorem runnable_eq_false_iff (s : State) :
    s.runnable = false ↔ s.es = .uninitialized ∨ s.es = .halted ∨ s.es = .faulted := by
  cases h : s.es <;> simp [State.runnable, h]

/-- An entry leaves the core in `Running`, `Halted` or `Faulted`. -/
theorem runEntry_es (e : Entry) (operands : List Byte) (s : State) :
    (runEntry e operands s).es = .running ∨ (runEntry e operands s).es = .halted ∨
      (runEntry e operands s).es = .faulted := by
  obtain ⟨x, m, pc, -, -, -, h⟩ | ⟨x, m, pc, -, h⟩ | h := runEntry_cases e operands s
  · exact .inl (by rw [h])
  · exact .inr (.inl (by rw [h]))
  · exact .inr (.inr (by rw [h, raise_es]))

theorem stepExt_es_of_runnable (ext : Ext) {s : State} (hr : s.runnable = true) :
    (stepExt ext s).es = .running ∨ (stepExt ext s).es = .halted ∨ (stepExt ext s).es = .faulted := by
  obtain ⟨hr', -⟩ | ⟨-, x, h⟩ | ⟨-, e, operands, -, h⟩ := stepExt_cases ext s
  · exact absurd (hr.symm.trans hr') (by decide)
  · exact .inr (.inr (by rw [h, raise_es]))
  · rw [h]
    exact runEntry_es e operands s

theorem stepExt_es_ne_ready (ext : Ext) (s : State) : (stepExt ext s).es ≠ .ready := by
  cases hr : s.runnable with
  | false =>
    rw [stepExt_of_not_runnable ext hr]
    obtain h | h | h := (runnable_eq_false_iff s).1 hr <;> simp [h]
  | true => obtain h | h | h := stepExt_es_of_runnable ext hr <;> simp [h]

/-! The cycle does not look at `ES`: each of its ways writes the new one. -/

section
variable (es : ExecState) (s : State)

theorem raise_with_es (x : FaultKind) : raise x { s with es := es } = raise x s := rfl

theorem commit_with_es (r : Result) : commit r { s with es := es } = commit r s := by
  cases r with
  | next x m pc => rw [commit, commit, raise_with_es]
  | halt x m pc => rfl
  | outOfBounds => rfl

theorem runEntry_with_es (e : Entry) (operands : List Byte) :
    runEntry e operands { s with es := es } = runEntry e operands s := by
  rw [runEntry, commit_with_es, runEntry]

theorem cycleExt_with_es (ext : Ext) : cycleExt ext { s with es := es } = cycleExt ext s := by
  simp only [cycleExt, raise_with_es, runEntry_with_es]

end

/-- Settles O15. In both states the cycle runs, and it does not look at `ES`. -/
theorem readyAndRunningStepAlike : Obligations.ReadyAndRunningStepAlike := by
  refine fun ext s => ⟨?_, fun h => stepExt_es_of_runnable ext ((runnable_iff s).2 (.inl h))⟩
  calc stepExt ext { s with es := .ready }
      = cycleExt ext { s with es := .ready } := stepExt_of_runnable ext rfl
    _ = cycleExt ext s := cycleExt_with_es ..
    _ = cycleExt ext { s with es := .running } := (cycleExt_with_es ..).symm
    _ = stepExt ext { s with es := .running } := (stepExt_of_runnable ext rfl).symm

/-- Settles O16. The pair is `returned` of the state left, and a step leaves none in `Ready`. -/
theorem stepReturnsStateAndSignal : Obligations.StepReturnsStateAndSignal := by
  refine ⟨fun ext s => ⟨_, _, hostOpExt_step ext s, rfl, stepExt_es_ne_ready ext s,
    returned_snd_eq_preconditionViolation_iff _, fun h => ?_, ?_⟩, rfl, rfl, rfl⟩
  · rw [returned_of_faulted h]
  · rintro (h | h)
    · rw [returned_of_running h]
    · rw [returned_of_halted h]

/-- Settles O13. `Uninitialized` is not runnable, and `init` works from every state. -/
theorem stepBeforeInitSignals : Obligations.StepBeforeInitSignals := by
  intro s h
  refine ⟨?_, init s, rfl, init_es s⟩
  rw [hostOp_step_of_not_runnable ((runnable_eq_false_iff s).2 (.inl h)), returned_of_uninitialized h]

/-- Settles O14. Neither state is runnable, so the pair returned is that of the state itself. -/
theorem stepAfterTheEndIsNoOp : Obligations.StepAfterTheEndIsNoOp := by
  refine fun s => ⟨fun h => ?_, fun h => ?_⟩
  · rw [hostOp_step_of_not_runnable ((runnable_eq_false_iff s).2 (.inr (.inl h))), returned_of_halted h]
  · rw [hostOp_step_of_not_runnable ((runnable_eq_false_iff s).2 (.inr (.inr h))), returned_of_faulted h]

/-- `init` reads nothing that it writes. -/
theorem init_init (s : State) : init (init s) = init s := rfl

/-- Settles O21. `init` names every field but the image and the parameters. -/
theorem initResetsAllButMemory : Obligations.InitResetsAllButMemory :=
  fun s => ⟨rfl, init_init s⟩

end Sys2Proof.Machine
end

-- ==== Runs of steps ====
section
/-! SUPPORT. A run of `ADD A,B` (R118, R130), the bound on every run of the hardware (R120), and how a step of the
sequential class moves `PC` (R118); and the statements about runs settled from them. -/

namespace Sys2Proof.Machine

open Sys2Proof

/-- R131: the result is the sum modulo 256. -/
theorem toNat_addRegs_a (x : Regs) : (addRegs x).a.toNat = (x.a.toNat + x.b.toNat) % 256 := by
  simp [addRegs, sum9]

/-- A step at 0x80 whose next `PC` stays in `CodeRegion` completes. -/
theorem step_add_of_lt {s : State} (hr : s.runnable = true) (hb : s.mem.readByte s.pc = 0x80)
    (h : s.pc + 1 < s.cfg.codeLen) :
    step s = .next { s with regs := addRegs s.regs, pc := s.pc + 1, es := .running } :=
  (step_of_readByte_add hr (by omega) hb).trans (exec_addAB_of_lt h)

/-- Settles O45, by induction on the number of steps: the first adds `B` once, and the rest start from there. -/
theorem addRunComputesMultiple : Obligations.AddRunComputesMultiple := by
  intro s k hr hbytes hlt
  induction k generalizing s with
  | zero =>
    have ha : s.regs.a.toNat < 256 := s.regs.a.isLt
    exact ⟨s, rfl, rfl, hr, by omega, rfl, rfl, rfl, rfl⟩
  | succ k ih =>
    have hstep := step_add_of_lt hr (hbytes 0 (by omega)) (by omega)
    have hrest : ∀ j, j < k → s.mem.readByte (s.pc + 1 + j) = 0x80 := by
      intro j hj
      rw [Nat.add_assoc, Nat.add_comm 1 j]
      exact hbytes (j + 1) (by omega)
    obtain ⟨t, hrun, hpc, ht, ha, hb, hmem, hcause, hcfg⟩ :=
      ih { s with regs := addRegs s.regs, pc := s.pc + 1, es := .running } rfl hrest
        (by show s.pc + 1 + k < s.cfg.codeLen; omega)
    refine ⟨t, (runSteps_succ hstep).trans hrun, ?_, ht, ?_, hb, hmem, hcause, hcfg⟩
    · rw [hpc]
      show s.pc + 1 + k = s.pc + (k + 1)
      omega
    · rw [ha, toNat_addRegs_a, addRegs_b, Nat.mod_add_mod, Nat.succ_mul, Nat.add_assoc, Nat.add_comm s.regs.b.toNat]

/-- Has faulted, or runs with at most `k` offsets of `CodeRegion` from its `PC` on. -/
def FaultsWithin (k : Nat) (s : State) : Prop :=
  s.es = .faulted ∨ (s.runnable = true ∧ s.pc < s.cfg.codeLen ∧ s.cfg.codeLen ≤ s.pc + k)

/-- A step uses up one offset: it moves `PC` by 1 or faults. -/
theorem faultsWithin_step {k : Nat} {s t : State} (h : FaultsWithin (k + 1) s) (hstep : step s = .next t) :
    FaultsWithin k t := by
  obtain ⟨hr, rfl⟩ | ⟨hr, hlt, rfl⟩ | ⟨-, x, rfl⟩ := step_cases hstep
  · obtain he | ⟨hr', -⟩ := h
    · exact .inl he
    · exact absurd (hr.symm.trans hr') (by decide)
  · obtain he | ⟨-, -, hle⟩ := h
    · exact absurd (hr.symm.trans ((runnable_eq_false_iff s).2 (.inr (.inr he)))) (by decide)
    · exact .inr ⟨rfl, hlt, by show s.cfg.codeLen ≤ s.pc + 1 + k; omega⟩
  · exact .inl (raise_es x s)

theorem runSteps_of_faultsWithin {k : Nat} {s : State} (h : FaultsWithin k s) :
    ∃ t, runSteps k s = .next t ∧ t.es = .faulted := by
  induction k generalizing s with
  | zero =>
    obtain he | ⟨-, hlt, hle⟩ := h
    · exact ⟨s, rfl, he⟩
    · omega
  | succ k ih =>
    have hstep := stepIsTheEmptyExtension s
    rw [runSteps_succ hstep]
    exact ih (faultsWithin_step h hstep)

/-- Settles O46. The offsets from `PC` on are a bound that each step lowers. -/
theorem everyRunEndsInFaulted : Obligations.EveryRunEndsInFaulted :=
  fun _ hr hpc => runSteps_of_faultsWithin (.inr ⟨hr, hpc, by omega⟩)

/-- Whatever it reads and stages, a transition that ends at `target` hands that `PC` to the commit. -/
theorem pc_eq_of_endsAt {c : Config} {start staged m : Memory} {t : Transition} {target pc : Int} {x : Regs}
    (ht : t.endsAt target) (h : Transition.result c start staged t = .next x m pc) : pc = target := by
  induction t generalizing staged with
  | next x' pc' =>
    cases h
    exact ht
  | halt x' pc' => cases h
  | load addr n k ih =>
    rw [Transition.result] at h
    split at h
    · exact ih _ (ht _) h
    · cases h
  | store addr n v k ih =>
    rw [Transition.result] at h
    split at h
    · exact ih ht h
    · cases h
  | outOfBounds => cases h

theorem lengthAt_of_entryAt_some {ext : Ext} {s : State} {e : Entry} (h : entryAt ext s = some e) :
    lengthAt ext s = 1 + e.width := by
  rw [lengthAt, h]

/-- A sequential entry that leaves the core runnable has moved `PC` by its length (R151). -/
theorem runEntry_pc_of_sequential {e : Entry} (he : e.sequential) {operands : List Byte} {s : State}
    (hr : (runEntry e operands s).runnable = true) : (runEntry e operands s).pc = s.pc + (1 + e.width) := by
  obtain ⟨x, m, pc, hres, -, -, h⟩ | ⟨x, m, pc, -, h⟩ | h := runEntry_cases e operands s
  · have hpc : pc = (s.pc : Int) + 1 + e.width := pc_eq_of_endsAt (he s.regs s.pc operands) hres
    rw [h]
    show pc.toNat = s.pc + (1 + e.width)
    omega
  · rw [h] at hr
    cases hr
  · rw [h] at hr
    cases hr

theorem stepExt_pc_of_sequential {ext : Ext} {s : State} (hseq : ∀ e, entryAt ext s = some e → e.sequential)
    (hr : s.runnable = true) (hr' : (stepExt ext s).runnable = true) :
    (stepExt ext s).pc = s.pc + lengthAt ext s := by
  obtain ⟨hn, -⟩ | ⟨-, x, h⟩ | ⟨-, e, operands, he, h⟩ := stepExt_cases ext s
  · exact absurd (hr.symm.trans hn) (by decide)
  · rw [h] at hr'
    cases hr'
  · rw [h] at hr' ⊢
    rw [runEntry_pc_of_sequential (hseq e he) hr', lengthAt_of_entryAt_some he]

/-- Settles O54, by induction on the number of steps: the run from the second state on meets the same conditions. -/
theorem pcIsMonotonicUnderSequentialEntries : Obligations.PcIsMonotonicUnderSequentialEntries := by
  intro ext k s hseq hrun
  induction k generalizing s with
  | zero => rfl
  | succ k ih =>
    have hfirst : (stepExt ext s).pc = s.pc + lengthAt ext s :=
      stepExt_pc_of_sequential (hseq 0 (by omega)) (hrun 0 (by omega)) (hrun 1 (by omega))
    have hrest : (runExt ext k (stepExt ext s)).pc = (stepExt ext s).pc + lengthSum ext k (stepExt ext s) :=
      ih (stepExt ext s) (fun j hj => hseq (j + 1) (by omega)) (fun j hj => hrun (j + 1) (by omega))
    rw [runExt, hrest, hfirst, lengthSum, Nat.add_assoc]

end Sys2Proof.Machine
end

-- ==== The sum and the carry of ADD A,B ====
section
/-! SUPPORT. The 9-bit sum of two bytes as numbers (R130), what it makes of the registers, and the statements about
`ADD A,B` settled from it. -/

namespace Sys2Proof.Machine

open Sys2Proof

theorem toNat_sum9 (a b : Byte) : (sum9 a b).toNat = a.toNat + b.toNat := by
  have ha : a.toNat < 256 := a.isLt
  have hb : b.toNat < 256 := b.isLt
  simp only [sum9, BitVec.toNat_add, BitVec.toNat_setWidth]
  omega

/-- Bit 8 of the 9-bit sum is set exactly if the sum does not fit a byte. -/
theorem flagsOfSum_sum9 (a b : Byte) :
    flagsOfSum (sum9 a b) = if 256 ≤ a.toNat + b.toNat then 0x01 else 0x00 := by
  have ha : a.toNat < 256 := a.isLt
  have hb : b.toNat < 256 := b.isLt
  have hbit : (flagsOfSum (sum9 a b)).toNat = (a.toNat + b.toNat) / 256 := by
    simp only [flagsOfSum, BitVec.toNat_setWidth, BitVec.extractLsb'_toNat, toNat_sum9, Nat.shiftRight_eq_div_pow]
    omega
  apply BitVec.eq_of_toNat_eq
  rw [hbit]
  split
  · show _ = 1
    omega
  · show _ = 0
    omega

/-- A merge under the carry mask takes bits 7:1 from the old `F`; a new `F` with no other bit than the carry is
or-ed in whole. -/
theorem mergeFlags_carryMask_of_reservedFlags_eq_zero {new : Byte} (h : reservedFlags new = 0) (old : Byte) :
    mergeFlags carryMask old new = (old &&& 0xFE) ||| new := by
  obtain rfl | rfl := (reservedFlags_eq_zero_iff new).1 h <;> rfl

theorem reservedFlags_flagsOfSum_sum9 (a b : Byte) : reservedFlags (flagsOfSum (sum9 a b)) = 0 := by
  rw [flagsOfSum_sum9]
  split <;> decide

theorem addRegs_a (x : Regs) : (addRegs x).a = x.a + x.b := by
  apply BitVec.eq_of_toNat_eq
  rw [toNat_addRegs_a, BitVec.toNat_add]

theorem toInt_addRegs_a (x : Regs) : (addRegs x).a.toInt = (x.a.toInt + x.b.toInt).bmod 256 := by
  rw [addRegs_a, BitVec.toInt_add]

theorem addRegs_f (x : Regs) :
    (addRegs x).f = (x.f &&& 0xFE) ||| if 256 ≤ x.a.toNat + x.b.toNat then 0x01 else 0x00 := by
  rw [← flagsOfSum_sum9]
  exact mergeFlags_carryMask_of_reservedFlags_eq_zero (reservedFlags_flagsOfSum_sum9 x.a x.b) x.f

/-- The carry as a number is the quotient of the sum by 256 (R131). -/
theorem toNat_carryFlag_addRegs (x : Regs) :
    (carryFlag (addRegs x).f).toNat = (x.a.toNat + x.b.toNat) / 256 := by
  have ha : x.a.toNat < 256 := x.a.isLt
  have hb : x.b.toNat < 256 := x.b.isLt
  rw [addRegs, carryFlag_mergeFlags, flagsOfSum_sum9]
  split
  · show 1 = _
    omega
  · show 0 = _
    omega

/-- R130's registers, written over numbers. -/
theorem addRegs_eq (x : Regs) :
    addRegs x =
      { a := BitVec.ofNat 8 ((x.a.toNat + x.b.toNat) % 256)
        b := x.b
        f := (x.f &&& 0xFE) ||| if 256 ≤ x.a.toNat + x.b.toNat then 0x01 else 0x00 } := by
  rw [← toNat_addRegs_a, BitVec.ofNat_toNat, BitVec.setWidth_eq, ← addRegs_f]
  rfl

/-- Where the reserved bits are 0, nothing of the old `F` is kept, as R130's pseudocode has it. -/
theorem and_0xFE_or_of_reservedFlags_eq_zero {f : Byte} (h : reservedFlags f = 0) (new : Byte) :
    (f &&& 0xFE) ||| new = new := by
  have hkept : f &&& 0xFE = 0#8 := by
    obtain rfl | rfl := (reservedFlags_eq_zero_iff f).1 h <;> rfl
  rw [hkept, BitVec.zero_or]

/-- Settles O6. Where `PC + 1` stays in `CodeRegion`, the registers are `addRegs`, written over numbers. -/
theorem addABResult : Obligations.AddABResult := by
  refine ⟨decode_add [], fun s => ⟨fun h => ?_, fun h hf => ?_, exec_addAB_of_le⟩⟩
  · rw [exec_addAB_of_lt h, addRegs_eq]
  · rw [exec_addAB_of_lt h, addRegs_eq, and_0xFE_or_of_reservedFlags_eq_zero hf]

/-- Settles O7. The third clause is the division of the sum by 256 with its remainder. -/
theorem addABArithmeticLaw : Obligations.AddABArithmeticLaw := by
  intro s h
  have hsum : s.regs.a.toNat + s.regs.b.toNat =
      256 * (carryFlag (addRegs s.regs).f).toNat + (addRegs s.regs).a.toNat := by
    rw [toNat_carryFlag_addRegs, toNat_addRegs_a, Nat.div_add_mod]
  exact ⟨_, exec_addAB_of_lt h, toNat_addRegs_a s.regs, toNat_carryFlag_addRegs s.regs, hsum,
    toInt_addRegs_a s.regs, reservedFlags_addRegs s.regs⟩

/-- Settles O9, by the two ways of `ADD A,B`: it completes with `addRegs`, or raises the fault. -/
theorem addABFrame : Obligations.AddABFrame := by
  intro s t h
  rcases Nat.lt_or_ge (s.pc + 1) s.cfg.codeLen with hlt | hle
  · rw [exec_addAB_of_lt hlt] at h
    cases h
    exact ⟨rfl, rfl, fun _ => rfl, reservedFlags_addRegs s.regs, .inl ⟨rfl, rfl, rfl⟩⟩
  · rw [exec_addAB_of_le hle] at h
    cases h
    exact ⟨rfl, rfl, fun _ => rfl, rfl, .inr rfl⟩

end Sys2Proof.Machine
end

-- ==== What a faulting step answers ====
section
/-! SUPPORT. The answer of `step` from the state it leaves, and the answers once an instruction has raised a fault (R105,
R106); and the statement about `ILLEGAL` (R140) settled from them. -/

namespace Sys2Proof.Machine

open Sys2Proof

section
variable {s t : State}

theorem hostOp_step_of_step_eq (h : step s = .next t) :
    hostOp .step s = .next (t, .stepped (returned t).1 (returned t).2) := by
  rw [hostOp, hostCall, h]

theorem hostOp_step_of_step_eq_raise {x : FaultKind} (h : step s = .next (raise x s)) :
    hostOp .step s = .next (raise x s, .stepped .faulted (causeSignal (some x))) :=
  hostOp_step_of_step_eq h

end

/-- A step in the state a fault left changes nothing and returns that fault again (R105). -/
theorem hostOp_step_raise (x : FaultKind) (s : State) :
    hostOp .step (raise x s) = .next (raise x s, .stepped .faulted (causeSignal (some x))) :=
  (stepAfterTheEndIsNoOp (raise x s)).2 (raise_es x s)

/-- Settles O10. The byte at `PC` decodes to the illegal instruction, whose one effect is to raise the fault; what the two
steps return is read off the state so left. -/
theorem illegalRaisesItsFault : Obligations.IllegalRaisesItsFault := by
  refine ⟨fun op hop => decode_of_ne hop [], exec_illegal, fun s hr hpc hb => ?_⟩
  have hstep : step s = .next (raise .illegalInstruction s) :=
    (step_of_readByte_ne hr hpc hb).trans (exec_illegal _ s)
  exact ⟨raise .illegalInstruction s, rfl, hostOp_step_of_step_eq_raise hstep, hostOp_step_raise .illegalInstruction s⟩

end Sys2Proof.Machine
end

-- ==== What the baseline never does ====
section
/-! SUPPORT. A step of the hardware keeps out of `Halted` and off the image, and of the image it reads `CodeRegion`
alone; and the statement about what the baseline leaves out (R158) settled from that. -/

namespace Sys2Proof.Machine

open Sys2Proof

section
variable {s t : State}

theorem step_es_ne_halted (hs : s.es ≠ .halted) (h : step s = .next t) : t.es ≠ .halted := by
  obtain ⟨-, rfl⟩ | ⟨-, -, rfl⟩ | ⟨-, x, rfl⟩ := step_cases h
  · exact hs
  · simp
  · simp

theorem step_mem (h : step s = .next t) : t.mem = s.mem := by
  obtain ⟨-, rfl⟩ | ⟨-, -, rfl⟩ | ⟨-, x, rfl⟩ := step_cases h <;> rfl

theorem step_pc (h : step s = .next t) : t.pc = s.pc ∨ t.pc = s.pc + 1 := by
  obtain ⟨-, rfl⟩ | ⟨-, -, rfl⟩ | ⟨-, x, rfl⟩ := step_cases h
  · exact .inl rfl
  · exact .inr rfl
  · exact .inl rfl

/-- An instruction that has been fetched neither reads nor writes the image. -/
theorem exec_with_mem {i : Instr} (m : Memory) (h : exec i s = .next t) :
    exec i { s with mem := m } = .next { t with mem := m } := by
  cases i with
  | addAB =>
    rcases Nat.lt_or_ge (s.pc + 1) s.cfg.codeLen with hlt | hle
    · rw [exec_addAB_of_lt hlt] at h
      cases h
      exact exec_addAB_of_lt (s := { s with mem := m }) hlt
    · rw [exec_addAB_of_le hle] at h
      cases h
      exact exec_addAB_of_le (s := { s with mem := m }) hle
  | illegal op =>
    rw [exec_illegal] at h
    cases h
    exact exec_illegal op { s with mem := m }

/-- The opcode fetch is the one access of a step, and it stays below `CODE_LEN`. -/
theorem step_with_mem {m : Memory} (hm : ∀ a, a < s.cfg.codeLen → m.readByte a = s.mem.readByte a)
    (h : step s = .next t) : step { s with mem := m } = .next { t with mem := m } := by
  cases hr : s.runnable with
  | false =>
    rw [step_of_not_runnable hr] at h
    cases h
    exact step_of_not_runnable (s := { s with mem := m }) hr
  | true =>
    rw [step_of_runnable hr] at h
    rw [step_of_runnable (s := { s with mem := m }) hr]
    rcases Nat.lt_or_ge s.pc s.cfg.codeLen with hlt | hle
    · rw [cycle_of_lt hlt] at h
      rw [cycle_of_lt (s := { s with mem := m }) hlt, hm s.pc hlt]
      exact exec_with_mem m h
    · rw [cycle_of_le hle] at h
      cases h
      exact cycle_of_le (s := { s with mem := m }) hle

end

/-- Settles O42. Not being `Halted` is kept by every operation of the host; the clauses about memory and `PC` are
those of one step. -/
theorem baselineNeverHaltsOrTouchesData : Obligations.BaselineNeverHaltsOrTouchesData := by
  refine ⟨fun s t ops rs hs h => ?_, fun s t h => ⟨step_mem h, step_pc h⟩, ?_⟩
  · exact hostRunWith_hostCall_keeps (P := fun s => s.es ≠ .halted) (fun s _ => by simp)
      (fun _ _ => step_es_ne_halted) (fun _ _ _ hs _ => hs) h hs
  · rintro s s' t ⟨hs', hbytes⟩ h
    have hstep := step_with_mem hbytes h
    rwa [← hs'] at hstep

end Sys2Proof.Machine
end

-- ==== The entries of an extension, by how their transition ends ====
section
/-! SUPPORT. An access of a transition on each side of the bounds check (R154), the commit of each kind of result (R112,
R113, R153), and the step at an entry of the extension as the commit of its transition's result; and the statements
about the operation classes settled from them. -/

namespace Sys2Proof.Machine

open Sys2Proof

theorem inCode_eq_false_iff (c : Config) (pc : Int) :
    inCode c pc = false ↔ pc < 0 ∨ (c.codeLen : Int) ≤ pc := by
  rw [← Bool.not_eq_true, inCode_iff]
  omega

section
variable (c : Config) (start staged : Memory)

@[simp] theorem result_next (x : Regs) (pc : Int) :
    Transition.result c start staged (.next x pc) = .next x staged pc := rfl

@[simp] theorem result_halt (x : Regs) (pc : Nat) :
    Transition.result c start staged (.halt x pc) = .halt x staged pc := rfl

variable {c} {addr : Int} {n : Nat}

theorem result_load_of_inBounds (h : inBounds c addr n = true) (k : List Byte → Transition) :
    Transition.result c start staged (.load addr n k) =
      Transition.result c start staged (k (start.loadBytes addr.toNat n)) := by
  rw [Transition.result, memRead_of_inBounds start h]

theorem result_load_of_not_inBounds (h : inBounds c addr n = false) (k : List Byte → Transition) :
    Transition.result c start staged (.load addr n k) = .outOfBounds := by
  rw [Transition.result, memRead_of_not_inBounds start h]

theorem result_store_of_inBounds (h : inBounds c addr n = true) (v : Nat) (k : Transition) :
    Transition.result c start staged (.store addr n v k) =
      Transition.result c start (staged.storeBytes addr.toNat (leBytes n v)) k := by
  rw [Transition.result, memWrite_of_inBounds staged v h]

theorem result_store_of_not_inBounds (h : inBounds c addr n = false) (v : Nat) (k : Transition) :
    Transition.result c start staged (.store addr n v k) = .outOfBounds := by
  rw [Transition.result, memWrite_of_not_inBounds staged v h]

end

section
variable (mask : Byte) (old x : Regs) (m : Memory)

@[simp] theorem limitFlags_next (pc : Int) :
    Result.limitFlags mask old (.next x m pc) = .next (limitRegs mask old x) m pc := rfl

@[simp] theorem limitFlags_halt (pc : Nat) :
    Result.limitFlags mask old (.halt x m pc) = .halt (limitRegs mask old x) m pc := rfl

@[simp] theorem limitFlags_outOfBounds : Result.limitFlags mask old .outOfBounds = .outOfBounds := rfl

end

section
variable {s : State} (x : Regs) (m : Memory) {target : Int}

theorem commit_next_of_inCode (h : inCode s.cfg target = true) :
    commit (.next x m target) s = { s with regs := x, mem := m, pc := target.toNat, es := .running } := if_pos h

/-- R113: nothing of the result lands, stored bytes included. -/
theorem commit_next_of_not_inCode (h : inCode s.cfg target = false) :
    commit (.next x m target) s = raise .outOfBoundsAccess s := if_neg (Bool.not_eq_true _ ▸ h)

/-- R153: there is no range check. -/
@[simp] theorem commit_halt (pc : Nat) :
    commit (.halt x m pc) s = { s with regs := x, mem := m, pc := pc, es := .halted } := rfl

@[simp] theorem commit_outOfBounds (s : State) : commit .outOfBounds s = raise .outOfBoundsAccess s := rfl

end

section
variable {ext : Ext} {s : State} {e : Entry} (hr : s.runnable = true) (he : entryAt ext s = some e)
include hr he

/-- R109: operand bytes past the end of `CodeRegion` fault before the entry runs. -/
theorem stepExt_of_operands_missing (hpc : s.pc < s.cfg.codeLen) (hw : s.cfg.codeLen < s.pc + 1 + e.width) :
    stepExt ext s = raise .outOfBoundsAccess s := by
  rw [entryAt] at he
  rw [stepExt_of_runnable ext hr, cycleExt, fetchByte, if_pos hpc]
  simp only [he, fetchOperands_of_lt s.mem hpc hw]

/-- A step at an entry whose operand bytes lie in `CodeRegion` commits what the entry's transition comes to. -/
theorem stepExt_of_exec_eq (hw : s.pc + 1 + e.width ≤ s.cfg.codeLen) {t : Transition}
    (ht : e.exec s.regs s.pc (s.mem.loadBytes (s.pc + 1) e.width) = t) :
    stepExt ext s =
      commit ((Transition.result s.cfg s.mem s.mem t).limitFlags e.flags s.regs) s := by
  rw [entryAt] at he
  rw [stepExt_of_runnable ext hr, cycleExt, fetchByte, if_pos (by omega)]
  simp only [he, fetchOperands_of_le s.mem hw, runEntry, ht]

end

/-- Settles O49. The range check is that of the commit; missing operand bytes fault before it. -/
theorem controlTransferIsRangeChecked : Obligations.ControlTransferIsRangeChecked := by
  intro ext s e hr hpc hb hext
  have he : entryAt ext s = some e := (entryAt_of_ne ext hb).trans hext
  refine ⟨stepExt_of_operands_missing hr he hpc, fun x target hw hexec => ?_⟩
  rw [stepExt_of_exec_eq hr he hw hexec, result_next, limitFlags_next]
  exact ⟨fun h => commit_next_of_inCode _ s.mem ((inCode_iff ..).2 h),
    fun h => commit_next_of_not_inCode _ s.mem ((inCode_eq_false_iff ..).2 h)⟩

/-- Settles O50. The state left is `Halted`, which determines the pair and is not runnable. -/
theorem haltEntryEntersHalted : Obligations.HaltEntryEntersHalted := by
  intro ext s e hr hw hb hext
  have he : entryAt ext s = some e := (entryAt_of_ne ext hb).trans hext
  have hhalt (x : Regs) (pc' : Nat) (hexec : e.exec s.regs s.pc (s.mem.loadBytes (s.pc + 1) e.width) = .halt x pc') :
      stepExt ext s = { s with regs := limitRegs e.flags s.regs x, pc := pc', es := .halted } := by
    rw [stepExt_of_exec_eq hr he hw hexec, result_halt, limitFlags_halt, commit_halt]
  refine ⟨fun x pc' hexec => ?_, fun h => ?_⟩
  · have hes : (stepExt ext s).es = .halted := by rw [hhalt x pc' hexec]
    exact ⟨hhalt x pc' hexec, returned_of_halted hes,
      stepExt_of_not_runnable ext ((runnable_eq_false_iff _).2 (.inr (.inl hes)))⟩
  · subst h
    rw [hhalt s.regs s.pc rfl, limitRegs_self]

/-- Settles O51. The bounds check decides whether the store is staged; the target is in range, so what is staged
commits. -/
theorem storeEntryIsBoundsChecked : Obligations.StoreEntryIsBoundsChecked := by
  intro ext s e x addr target n v hr hw hb hext hexec h0 hlt
  have hcode : inCode s.cfg target = true := (inCode_iff ..).2 ⟨h0, hlt⟩
  rw [stepExt_of_exec_eq hr ((entryAt_of_ne ext hb).trans hext) hw hexec]
  refine ⟨fun h => ?_, fun h => ?_⟩
  · rw [result_store_of_inBounds s.mem s.mem ((inBounds_iff ..).2 h), result_next, limitFlags_next,
      commit_next_of_inCode _ _ hcode]
  · rw [result_store_of_not_inBounds s.mem s.mem ((inBounds_eq_false_iff ..).2 h), limitFlags_outOfBounds,
      commit_outOfBounds, raise]

/-- Settles O52. The bounds check decides whether the entry goes on with the bytes; nothing is staged. -/
theorem loadEntryIsBoundsChecked : Obligations.LoadEntryIsBoundsChecked := by
  intro ext s e addr target n g hr hw hb hext hexec h0 hlt
  have hcode : inCode s.cfg target = true := (inCode_iff ..).2 ⟨h0, hlt⟩
  rw [stepExt_of_exec_eq hr ((entryAt_of_ne ext hb).trans hext) hw hexec]
  refine ⟨fun h => ?_, fun h => ?_⟩
  · rw [result_load_of_inBounds s.mem s.mem ((inBounds_iff ..).2 h), result_next, limitFlags_next,
      commit_next_of_inCode _ _ hcode]
  · rw [result_load_of_not_inBounds s.mem s.mem ((inBounds_eq_false_iff ..).2 h), limitFlags_outOfBounds,
      commit_outOfBounds, raise]

/-- Settles O55. Of the ways of a step only the entry at `PC` writes `F`, and there its mask decides. -/
theorem stepWritesOnlyTheStatedFlags : Obligations.StepWritesOnlyTheStatedFlags :=
  fun ext _ _ => stepExt_f_getLsbD_of_unstated ext

theorem limitRegs_of_agree {mask : Byte} {old new : Regs} (h : new.f &&& ~~~mask = old.f &&& ~~~mask) :
    limitRegs mask old new = new := by
  rw [limitRegs, mergeFlags_of_agree h]

/-- The limit takes nothing from a transition that keeps the bits outside the mask, whatever it reads and stages. -/
theorem limitFlags_result_of_keepsFlags (c : Config) (start : Memory) {staged : Memory} {mask : Byte} {old : Regs}
    {t : Transition} (h : t.keepsFlags mask old.f) :
    (Transition.result c start staged t).limitFlags mask old = Transition.result c start staged t := by
  induction t generalizing staged with
  | next x pc => rw [result_next, limitFlags_next, limitRegs_of_agree h]
  | halt x pc => rw [result_halt, limitFlags_halt, limitRegs_of_agree h]
  | load addr n k ih =>
    cases hb : inBounds c addr n with
    | true =>
      rw [result_load_of_inBounds start staged hb]
      exact ih _ (h _)
    | false => rw [result_load_of_not_inBounds start staged hb, limitFlags_outOfBounds]
  | store addr n v k ih =>
    cases hb : inBounds c addr n with
    | true =>
      rw [result_store_of_inBounds start staged hb]
      exact ih h
    | false => rw [result_store_of_not_inBounds start staged hb, limitFlags_outOfBounds]
  | outOfBounds => rfl

/-- Settles O56. Under R150's condition the limit on the flags is the identity on the entry's result. -/
theorem lawfulEntryCommitsItsOwnResult : Obligations.LawfulEntryCommitsItsOwnResult := by
  intro e operands s h
  rw [runEntry, limitFlags_result_of_keepsFlags s.cfg s.mem (h s.regs s.pc operands)]

end Sys2Proof.Machine
end

-- ==== Entering Faulted, staying there, and keeping out of it ====
section
/-! SUPPORT. A step enters `Faulted` by `raise` alone (R175) and never leaves it (R105), and a run keeps out of it by
`ADD A,B` alone (R187); and the statements about faults settled from that. -/

namespace Sys2Proof.Machine

open Sys2Proof

/-- The other two ways of an entry end in `Running` and in `Halted`. -/
theorem runEntry_eq_raise_of_es_eq_faulted {e : Entry} {operands : List Byte} {s : State}
    (h : (runEntry e operands s).es = .faulted) : runEntry e operands s = raise .outOfBoundsAccess s := by
  obtain ⟨x, m, pc, -, -, -, hrun⟩ | ⟨x, m, pc, -, hrun⟩ | hrun := runEntry_cases e operands s
  · rw [hrun] at h
    cases h
  · rw [hrun] at h
    cases h
  · exact hrun

theorem stepExt_eq_raise_of_es_eq_faulted {ext : Ext} {s : State} (hs : s.es ≠ .faulted)
    (h : (stepExt ext s).es = .faulted) : ∃ x, stepExt ext s = raise x s := by
  obtain ⟨-, hstep⟩ | ⟨-, hraise⟩ | ⟨-, e, operands, -, hstep⟩ := stepExt_cases ext s
  · rw [hstep] at h
    exact absurd h hs
  · exact hraise
  · rw [hstep] at h ⊢
    exact ⟨_, runEntry_eq_raise_of_es_eq_faulted h⟩

/-- Settles O19. The step has raised the fault, and `raise` writes `ES` and `CAUSE` alone. -/
theorem faultEntryIsPrecise : Obligations.FaultEntryIsPrecise := by
  intro ext s hs h
  obtain ⟨x, hx⟩ := stepExt_eq_raise_of_es_eq_faulted hs h
  exact ⟨x, hx, by rw [returned_of_faulted h, hx, raise_cause]⟩

section
variable {s : State} (h : s.es = .faulted)
include h

theorem runnable_of_faulted : s.runnable = false := (runnable_eq_false_iff s).2 (.inr (.inr h))

theorem stepExt_of_faulted (ext : Ext) : stepExt ext s = s := stepExt_of_not_runnable ext (runnable_of_faulted h)

theorem step_of_faulted : step s = .next s := step_of_not_runnable (runnable_of_faulted h)

end

/-- Settles O20. A step changes nothing in `Faulted`, and the host's write changes the image alone. -/
theorem faultedIsLeftByInitAlone : Obligations.FaultedIsLeftByInitAlone := by
  intro ext op s t r h hs
  obtain hinit | ⟨-, hstep⟩ | ⟨addr, b, -, -, rfl⟩ | rfl := hostCall_cases h
  · exact .inl hinit
  · rw [stepExt_of_faulted hs] at hstep
    cases hstep
    exact .inr ⟨hs, rfl, rfl, rfl⟩
  · exact .inr ⟨hs, rfl, rfl, rfl⟩
  · exact .inr ⟨hs, rfl, rfl, rfl⟩

theorem es_ne_faulted_of_runnable {s : State} (hr : s.runnable = true) : s.es ≠ .faulted :=
  fun he => absurd (hr.symm.trans (runnable_of_faulted he)) (by decide)

/-- A step that does not fault has run an `ADD A,B` whose next `PC` is in `CodeRegion`. -/
theorem readByte_add_of_step_es_ne_faulted {s t : State} (hr : s.runnable = true) (hpc : s.pc < s.cfg.codeLen)
    (hstep : step s = .next t) (ht : t.es ≠ .faulted) :
    s.mem.readByte s.pc = 0x80 ∧ s.pc + 1 < s.cfg.codeLen := by
  by_cases hb : s.mem.readByte s.pc = 0x80
  · rcases Nat.lt_or_ge (s.pc + 1) s.cfg.codeLen with hlt | hle
    · exact ⟨hb, hlt⟩
    · rw [step_of_readByte_add hr hpc hb, exec_addAB_of_le hle] at hstep
      cases hstep
      exact absurd (raise_es ..) ht
  · rw [step_of_readByte_ne hr hpc hb, exec_illegal] at hstep
    cases hstep
    exact absurd (raise_es ..) ht

theorem es_ne_faulted_of_faultFree {k : Nat} {s : State} (h : FaultFree k s) : s.es ≠ .faulted := by
  obtain ⟨t, hrun, ht⟩ := h 0 (Nat.zero_le k)
  cases hrun
  exact ht

theorem faultFree_step {k : Nat} {s t : State} (h : FaultFree (k + 1) s) (hstep : step s = .next t) :
    FaultFree k t := by
  intro j hj
  rw [← runSteps_succ hstep]
  exact h (j + 1) (Nat.succ_le_succ hj)

/-- Each prefix of a run of `ADD A,B` ends in a runnable state (`addRunComputesMultiple`). -/
theorem faultFree_of_readByte_add {s : State} {k : Nat} (hr : s.runnable = true)
    (hbytes : ∀ j, j < k → s.mem.readByte (s.pc + j) = 0x80) (hlt : s.pc + k < s.cfg.codeLen) : FaultFree k s := by
  intro j hj
  obtain ⟨t, hrun, -, ht, -⟩ := addRunComputesMultiple s j hr (fun i hi => hbytes i (by omega)) (by omega)
  exact ⟨t, hrun, es_ne_faulted_of_runnable ht⟩

theorem readByte_add_of_faultFree {s : State} {k : Nat} (hr : s.runnable = true) (hpc : s.pc < s.cfg.codeLen)
    (h : FaultFree k s) : (∀ j, j < k → s.mem.readByte (s.pc + j) = 0x80) ∧ s.pc + k < s.cfg.codeLen := by
  induction k generalizing s with
  | zero => exact ⟨fun j hj => absurd hj (Nat.not_lt_zero j), hpc⟩
  | succ k ih =>
    have hstep := stepIsTheEmptyExtension s
    obtain ⟨hb, hlt⟩ := readByte_add_of_step_es_ne_faulted hr hpc hstep
      (es_ne_faulted_of_faultFree (faultFree_step h hstep))
    obtain ⟨hbytes, hend⟩ := ih (s := { s with regs := addRegs s.regs, pc := s.pc + 1, es := .running }) rfl hlt
      (faultFree_step h (step_add_of_lt hr hb hlt))
    refine ⟨fun j hj => ?_, by rwa [Nat.add_right_comm] at hend⟩
    cases j with
    | zero => exact hb
    | succ j =>
      rw [← Nat.add_assoc, Nat.add_right_comm]
      exact hbytes j (Nat.lt_of_succ_lt_succ hj)

/-- Settles O44. A first step that does not fault is an `ADD A,B`, and the rest of the run starts one byte further on. -/
theorem faultFreeRunsAreExactlyAddRuns : Obligations.FaultFreeRunsAreExactlyAddRuns := by
  refine ⟨fun s t hs hstep => ?_, fun s k hr hpc => ⟨readByte_add_of_faultFree hr hpc, ?_⟩⟩
  · rw [step_of_faulted hs] at hstep
    cases hstep
    exact hs
  · rintro ⟨hbytes, hlt⟩
    exact faultFree_of_readByte_add hr hbytes hlt

end Sys2Proof.Machine
end

-- ==== The image a core is built on, and the answer of every step ====
section
/-! SUPPORT. The image construction binds, byte by byte (R200); and the statements about construction (R200) and about
the answer of `step` (R114, R211) settled from that and from the lemmas above. -/

namespace Sys2Proof.Machine

open Sys2Proof

/-- Stored from address 0 into the empty image, a list of bytes reads back by its own indices. -/
theorem Memory.readByte_storeBytes_nil_of_lt {bytes : List Byte} {a : Nat} (h : a < bytes.length) :
    (Memory.storeBytes [] 0 bytes).readByte a = bytes.getD a 0 := by
  rw [readByte_storeBytes bytes rfl, if_pos (by omega), Nat.sub_zero]

/-- Settles O22. Canonical form and size are those of every constructed core (`inv_construct`). -/
theorem constructionBindsTheImage : Obligations.ConstructionBindsTheImage := by
  intro c image x pc hc hlen
  have hcons := construct_of_length_eq hc hlen x pc
  obtain ⟨-, hwf, hfits, -, -⟩ := inv_construct hcons
  exact ⟨_, hcons, rfl, rfl, rfl, rfl, rfl,
    fun a ha => Memory.readByte_storeBytes_nil_of_lt (hlen.symm ▸ ha), hwf, hfits⟩

/-- Settles O17. A step is that of the empty extension, which is a state and none in `Ready`. -/
theorem everyStepReturns : Obligations.EveryStepReturns :=
  fun s => ⟨stepExt Ext.empty s, stepIsTheEmptyExtension s, stepExt_es_ne_ready Ext.empty s⟩

end Sys2Proof.Machine
end

-- ==== The canonical image, the placed word and the reset state ====
section
/-! SUPPORT. The canonical form determines the image (log 4), where `withFetchWord` puts an opcode byte (log 16), and the
image of zeros; and the statements about them and about `State.reset` settled from that. -/

namespace Sys2Proof.Machine

open Sys2Proof

namespace Memory

/-- The byte an image lists first can be read only from images that may list its address. -/
theorem le_head_of_readByte_eq {low low' x : Nat} {b : Byte} {m m' : Memory} (hm : wfFrom low ((x, b) :: m) = true)
    (hm' : wfFrom low' m' = true) (h : readByte m' x = readByte ((x, b) :: m) x) : low' ≤ x := by
  obtain ⟨-, hb, -⟩ := (wfFrom_cons ..).1 hm
  rw [readByte_cons, if_pos rfl] at h
  by_contra hlt
  exact hb (h.symm.trans (readByte_of_lt hm' (by omega)))

/-- Past two equal first cells, the rest of two images that read alike reads alike. -/
theorem readByte_tail_eq {x : Nat} {b : Byte} {m m' : Memory} (hm : wfFrom (x + 1) m = true)
    (hm' : wfFrom (x + 1) m' = true) (h : ∀ a, readByte ((x, b) :: m) a = readByte ((x, b) :: m') a) (a : Nat) :
    readByte m a = readByte m' a := by
  rcases eq_or_ne x a with rfl | hne
  · rw [readByte_of_lt hm x.lt_succ_self, readByte_of_lt hm' x.lt_succ_self]
  · simpa only [readByte_cons, if_neg hne] using h a

theorem eq_of_readByte_eq {low low' : Nat} {m m' : Memory} (hm : wfFrom low m = true) (hm' : wfFrom low' m' = true)
    (h : ∀ a, readByte m a = readByte m' a) : m = m' := by
  induction m generalizing low low' m' with
  | nil =>
    cases m' with
    | nil => rfl
    | cons c' m' => exact absurd (le_head_of_readByte_eq (low' := c'.1 + 1) hm' rfl (h c'.1)) (by omega)
  | cons c m ih =>
    obtain ⟨x, b⟩ := c
    obtain ⟨-, hb, hrest⟩ := (wfFrom_cons ..).1 hm
    cases m' with
    | nil => exact absurd (le_head_of_readByte_eq (low' := x + 1) hm rfl (h x).symm) (by omega)
    | cons c' m' =>
      obtain ⟨x', b'⟩ := c'
      obtain ⟨-, hb', hrest'⟩ := (wfFrom_cons ..).1 hm'
      have hle : x' ≤ x := le_head_of_readByte_eq hm ((wfFrom_cons ..).2 ⟨le_rfl, hb', hrest'⟩) (h x).symm
      have hge : x ≤ x' := le_head_of_readByte_eq hm' ((wfFrom_cons ..).2 ⟨le_rfl, hb, hrest⟩) (h x')
      obtain rfl : x = x' := le_antisymm hge hle
      obtain rfl : b = b' := by simpa only [readByte_cons, if_pos] using h x
      rw [ih hrest hrest' (readByte_tail_eq hrest hrest' h)]

/-- Bytes that read as unlisted ones are not listed (log 4). -/
theorem storeBytes_nil_replicate_unlistedByte (a n : Nat) : storeBytes [] a (List.replicate n unlistedByte) = [] := by
  induction n generalizing a with
  | zero => rfl
  | succ n ih => exact ih (a + 1)

end Memory

/-- A table word of 8 bits is the one opcode byte of its low bits (R88). -/
theorem wordBytes_eight (w : Nat) : wordBytes 8 w = [BitVec.ofNat 8 w] := by
  have hmod : BitVec.ofNat 8 (w % 256) = BitVec.ofNat 8 w := BitVec.eq_of_toNat_eq (by simp)
  simp [wordBytes, hmod]

/-- A placed opcode byte stands at the `PC` of a core that fetches it, in whatever state the core was before. -/
theorem placeInstr_singleton {s : State} (h : s.Inv) (op : Byte) :
    (placeInstr [op] s).runnable = true ∧ (placeInstr [op] s).pc < (placeInstr [op] s).cfg.codeLen ∧
      (placeInstr [op] s).mem.readByte (placeInstr [op] s).pc = op := by
  obtain ⟨hcfg, hwf, -, -, -⟩ := h
  have hread (a : Nat) : (s.mem.storeBytes a [op]).readByte a = op := by
    rw [Memory.readByte_storeBytes [op] hwf, if_pos (by simp), Nat.sub_self]
    rfl
  rw [placeInstr]
  split
  · next hfetch =>
    obtain ⟨hr, hpc⟩ : s.runnable = true ∧ s.pc < s.cfg.codeLen := by simpa using hfetch
    exact ⟨hr, hpc, hread s.pc⟩
  · exact ⟨rfl, hcfg.1, hread 0⟩

/-- Settles O31. The first cells of the two images agree in address and byte, and so on down the lists. -/
theorem canonicalImagesThatReadAlikeAreEqual : Obligations.CanonicalImagesThatReadAlikeAreEqual :=
  fun _ _ hm hm' h => Memory.eq_of_readByte_eq hm hm' h

/-- Settles O37. The step fetches the placed byte, which decodes to the same instruction as the table word. -/
theorem placedWordIsRun : Obligations.PlacedWordIsRun := by
  intro s w i hinv hdecode
  rw [decodeTableWord, wordBytes_eight, decode_cons] at hdecode
  cases hdecode
  rw [State.withFetchWord, wordBytes_eight]
  obtain ⟨hr, hpc, hread⟩ := placeInstr_singleton hinv (BitVec.ofNat 8 w)
  rw [step_of_runnable hr, cycle_of_lt hpc, hread]

/-- Settles O24. An image of zeros lists nothing, and `init` overwrites the unspecified registers. -/
theorem resetIsConstructionThenInit : Obligations.ResetIsConstructionThenInit := by
  intro x pc
  have hmem : Memory.storeBytes [] 0 (List.replicate resetConfig.total 0x00) = [] :=
    Memory.storeBytes_nil_replicate_unlistedByte 0 resetConfig.total
  refine ⟨_, construct_of_length_eq (by decide) List.length_replicate x pc, ?_⟩
  rw [hmem]
  rfl

/-- Settles O38. Construction gives the invariant and `init` keeps it. -/
theorem resetMeetsTheInvariant : Obligations.ResetMeetsTheInvariant := by
  obtain ⟨s, hs, hreset⟩ := resetIsConstructionThenInit State.reset.regs State.reset.pc
  rw [Obligations.ResetMeetsTheInvariant, hreset]
  exact inv_init (inv_construct hs)

end Sys2Proof.Machine
end
